-- ==== Sys2Proof/Word.lean ====
section
/-!
DEFINITION. The word types of the NTT engine core and the fixed-size vectors made of them:
cells, bytes, 32-bit words, ring registers, the register file and the byte buffer.
-/

namespace Sys2Proof

/-- A coefficient cell: a 12-bit unsigned integer, 0 to 4095 (R21). -/
abbrev Coef := BitVec 12

/-- A byte of BUF, 0 to 255 (R26). -/
abbrev Byte := BitVec 8

/-- A command word, and the width of every CSR (R6, R29). -/
abbrev Word32 := BitVec 32

/-- A ring register: 256 cells, cell `i` being element `i` of the ring element (R21). -/
abbrev RingReg := Vector Coef 256

/-- The eight ring registers R0 to R7 (R21). -/
abbrev RegFile := Vector RingReg 8

/-- The byte buffer BUF[0] to BUF[383] (R26). -/
abbrev Buffer := Vector Byte 384

/-- A ring register number, 0 to 7: the only values a legal operand field can hold (R81, R83). -/
abbrev RegNum := Fin 8

/-- The vector whose entry `k` is `f k`, built from a list so that the kernel evaluates it
entry by entry. -/
def tabulate {α : Type} (n : Nat) (f : Nat → α) : Vector α n :=
  ⟨⟨(List.range n).map f⟩, by simp⟩

end Sys2Proof
end

