-- ==== Sys2Proof/Syntax.lean ====
section
/-!
DEFINITION. The ten commands of the engine (R84): one constructor per row of the opcode map.
Operands are the fields of R83: register numbers 0 to 7, the raw 4-bit field d and the raw 8-bit
field idx. A word whose d or idx is out of range is still a well-formed instance of its row (R95
steps 2 and 3), so the fields keep every value they can hold and the command itself faults.
-/

namespace Sys2Proof

/-- The commands, in the order of the opcode map (R84). -/
inductive Instr where
  /-- `ENCODE ra, d` (R140): pack R[ra] into 32*d bytes of BUF. -/
  | encode (ra : RegNum) (d : BitVec 4)
  /-- `DECODE rd, d` (R141): unpack 32*d bytes of BUF into R[rd]. -/
  | decode (rd : RegNum) (d : BitVec 4)
  /-- `COMPRESS rd, ra, d` (R151). -/
  | compress (rd ra : RegNum) (d : BitVec 4)
  /-- `DECOMPRESS rd, ra, d` (R152). -/
  | decompress (rd ra : RegNum) (d : BitVec 4)
  /-- `NTT rd, ra` (R161): forward transform. -/
  | ntt (rd ra : RegNum)
  /-- `INTT rd, ra` (R163): inverse transform. -/
  | intt (rd ra : RegNum)
  /-- `MULNTT rd, ra, rb` (R171): pointwise product of two transforms. -/
  | mulntt (rd ra rb : RegNum)
  /-- `ADD rd, ra, rb` (R181). -/
  | add (rd ra rb : RegNum)
  /-- `SUB rd, ra, rb` (R182). -/
  | sub (rd ra rb : RegNum)
  /-- `BREV7 idx` (R190): 7-bit bit reversal into RESULT. -/
  | brev7 (idx : BitVec 8)
deriving DecidableEq, Repr

end Sys2Proof
end

