-- ==== Sys2Proof/Decode.lean ====
section
/-!
DEFINITION. The command decoder (R95 step 1, R96), total on every 32-bit word, and the encoder
(R81, R84). A word that matches no row of R84 is rejected by name; every rejection is the engine
fault ILLEGAL_CMD.
-/

namespace Sys2Proof

/-- Why a word matches no row of the opcode map (R96). The engine reports all of them alike, as
ILLEGAL_CMD: the names are the model's own. DESIGN CHOICE, log entry 12. -/
inductive Reject where
  /-- OP = 0x00 or OP ≥ 0x0B (R96). Raised by `decode`; the step takes ILLEGAL_CMD. Safe. -/
  | unknownOpcode
  /-- A known OP with bits [31:24] not zero (R96). Raised by `decode`. Safe. -/
  | nonzeroZ
  /-- A known OP, Z zero, and a register number 8 to 15 or a non-zero field the format does not
  use (R96). Raised by `decode`. Safe. -/
  | malformedField
deriving DecidableEq, Repr

/-- Field OP, bits [7:0] (R81). -/
def fieldOP (w : Word32) : BitVec 8 := w.extractLsb' 0 8

/-- Operand rd = w[10:8] (R83). -/
def fieldRD (w : Word32) : RegNum := (w.extractLsb' 8 3).toFin

/-- Operand ra = w[14:12] (R83). -/
def fieldRA (w : Word32) : RegNum := (w.extractLsb' 12 3).toFin

/-- Operand rb = w[18:16] (R83). -/
def fieldRB (w : Word32) : RegNum := (w.extractLsb' 16 3).toFin

/-- Operand d = w[23:20] (R83). -/
def fieldD (w : Word32) : BitVec 4 := w.extractLsb' 20 4

/-- Operand idx = w[19:12] (R83). -/
def fieldIDX (w : Word32) : BitVec 8 := w.extractLsb' 12 8

/-- Field Z, bits [31:24] (R81). -/
def fieldZ (w : Word32) : BitVec 8 := w.extractLsb' 24 8

/-- The name under which a word that matches no row is rejected (R96). -/
def rejectReason (w : Word32) : Reject :=
  if fieldOP w = 0#8 ∨ 0x0B#8 ≤ fieldOP w then .unknownOpcode
  else if fieldZ w ≠ 0#8 then .nonzeroZ
  else .malformedField

/-- The decoder (R84, R95 step 1): `match` and `mask` of each row are those of the opcode map. -/
def decode (w : Word32) : Except Reject Instr :=
  if w &&& 0xFF0F8FFF#32 = 0x00000001#32 then .ok (.encode (fieldRA w) (fieldD w))
  else if w &&& 0xFF0FF8FF#32 = 0x00000002#32 then .ok (.decode (fieldRD w) (fieldD w))
  else if w &&& 0xFF0F88FF#32 = 0x00000003#32 then
    .ok (.compress (fieldRD w) (fieldRA w) (fieldD w))
  else if w &&& 0xFF0F88FF#32 = 0x00000004#32 then
    .ok (.decompress (fieldRD w) (fieldRA w) (fieldD w))
  else if w &&& 0xFFFF88FF#32 = 0x00000005#32 then .ok (.ntt (fieldRD w) (fieldRA w))
  else if w &&& 0xFFFF88FF#32 = 0x00000006#32 then .ok (.intt (fieldRD w) (fieldRA w))
  else if w &&& 0xFFF888FF#32 = 0x00000007#32 then
    .ok (.mulntt (fieldRD w) (fieldRA w) (fieldRB w))
  else if w &&& 0xFFF888FF#32 = 0x00000008#32 then
    .ok (.add (fieldRD w) (fieldRA w) (fieldRB w))
  else if w &&& 0xFFF888FF#32 = 0x00000009#32 then
    .ok (.sub (fieldRD w) (fieldRA w) (fieldRB w))
  else if w &&& 0xFFF00FFF#32 = 0x0000000A#32 then .ok (.brev7 (fieldIDX w))
  else .error (rejectReason w)

/-- A register number as a 4-bit field: its top bit is zero (R81). -/
def regField (r : RegNum) : BitVec 4 := BitVec.ofNat 4 r.val

/-- The word with the hex digits `00 D B A R OO` (R81): Z = 0, then D, RB, RA, RD and OP. -/
def wordOf (d rb ra rd : BitVec 4) (op : BitVec 8) : Word32 :=
  0x00#8 ++ d ++ rb ++ ra ++ rd ++ op

/-- The encoder: each command in the format of its row, a field the format does not use being zero
(R82, R84). The operand idx of BREV7 lies in the RB and RA positions (R81). -/
def encode : Instr → Word32
  | .encode ra d => wordOf d 0 (regField ra) 0 0x01
  | .decode rd d => wordOf d 0 0 (regField rd) 0x02
  | .compress rd ra d => wordOf d 0 (regField ra) (regField rd) 0x03
  | .decompress rd ra d => wordOf d 0 (regField ra) (regField rd) 0x04
  | .ntt rd ra => wordOf 0 0 (regField ra) (regField rd) 0x05
  | .intt rd ra => wordOf 0 0 (regField ra) (regField rd) 0x06
  | .mulntt rd ra rb => wordOf 0 (regField rb) (regField ra) (regField rd) 0x07
  | .add rd ra rb => wordOf 0 (regField rb) (regField ra) (regField rd) 0x08
  | .sub rd ra rb => wordOf 0 (regField rb) (regField ra) (regField rd) 0x09
  | .brev7 idx => wordOf 0 (idx.extractLsb' 4 4) (idx.extractLsb' 0 4) 0 0x0A

/-- The command the decoder reads from the low `nbits` bits of `w`, the bits above them being zero.
A command is one 32-bit value (R80), delivered by value and not stored in memory, so the whole
word is given to the decoder as it is. -/
def decodeTableWord (nbits w : Nat) : Option Instr :=
  match decode (BitVec.ofNat 32 (w % 2 ^ nbits)) with
  | .ok i => some i
  | .error _ => none

end Sys2Proof
end

