-- ==== Sys2Proof/Config.lean ====
section
/-!
DEFINITION. What an implementation of the engine fixes: the constants of R5 and R6, and the
free values the spec leaves open (the contents of the ring registers and of BUF after a reset).
-/

namespace Sys2Proof.Config

/-- The field modulus q = 3329 (R5). -/
abbrev q : Int := 3329

/-- The ring degree n = 256: cells per ring register (R5). -/
abbrev n : Nat := 256

/-- ROOT = 17, the primitive 256th root of unity modulo q (R5). -/
abbrev root : Nat := 17

/-- NINV = 3303, the inverse of 128 modulo q (R5). -/
abbrev ninv : Int := 3303

/-- BUFLEN = 384, the bytes of BUF (R6). -/
abbrev bufLen : Nat := 384

/-- DMIN = 1, the least legal value of the operand d (R6, R97). -/
abbrev dMin : Nat := 1

/-- DMAX = 12, the greatest legal value of the operand d (R6, R97). -/
abbrev dMax : Nat := 12

/-- ID_VALUE, the constant the ID register reads as (R6, R30). -/
abbrev idValue : Word32 := 0x0D010100#32

/-- WINDOW = 0x2000, the bytes of the engine's bus window (R64). -/
abbrev windowSize : Nat := 0x2000

/-- DESIGN CHOICE, safe but for log entry 1's sentence on two runs: the content of cell `i` of
ring register `r` right after power-on. R39 leaves it unspecified ("A model must not give these
cells a value"), so it has no body and nothing can be proved of it (U1). -/
opaque powerOnCell (r i : Nat) : Coef

/-- DESIGN CHOICE (log entry 1): the content of BUF[k] right after power-on, unspecified by R39. -/
opaque powerOnByte (k : Nat) : Byte

/-- DESIGN CHOICE (log entry 2): the content of cell `i` of ring register `r` after the reset
number `epoch`. R39 leaves it unspecified, and R231 admits a device that clears, one that retains
and one that does neither, so it is a free function of the old contents too. -/
opaque resetCell (epoch : Nat) (oldRegs : RegFile) (oldBuf : Buffer) (r i : Nat) : Coef

/-- DESIGN CHOICE (log entry 2): the content of BUF[k] after the reset number `epoch`,
unspecified by R39, a free function of the old contents too. -/
opaque resetByte (epoch : Nat) (oldRegs : RegFile) (oldBuf : Buffer) (k : Nat) : Byte

end Sys2Proof.Config
end

