-- ==== Sys2Proof/Machine/Arith.lean ====
section
/-!
DEFINITION. The scalar functions of the spec's arithmetic file: modular reduction, bit reversal,
twiddles and twists, rounding, compress1 and decompress1, and the bit and byte sequences of
ByteEncode and ByteDecode. All of them are exact on unbounded integers (R7, R126).
-/

namespace Sys2Proof.Machine

/-- `modq(v)`: the floor-style remainder modulo 3329 (R111), in 0..3328 for every integer. -/
def modq (v : Int) : Int := v % Config.q

/-- The seven binary digits of i in reverse order, for i in 0..127 (R114). -/
def bitrev7 (i : Nat) : Nat :=
  i % 2 * 64 + i / 2 % 2 * 32 + i / 4 % 2 * 16 + i / 8 % 2 * 8 + i / 16 % 2 * 4
    + i / 32 % 2 * 2 + i / 64 % 2

/-- bitrev7 with its domain: outside 0..127 it has no value and fails (R114). -/
def bitrev7? (i : Nat) : Option Nat := if i ≤ 127 then some (bitrev7 i) else none

/-- The twiddle factor zeta(i) = 17^bitrev7(i) mod 3329, for i in 0..127 (R116). -/
def zeta (i : Nat) : Int := (Config.root : Int) ^ bitrev7 i % Config.q

/-- The twist gamma(i) = 17^(2*bitrev7(i)+1) mod 3329, for i in 0..127 (R117). -/
def gamma (i : Nat) : Int := (Config.root : Int) ^ (2 * bitrev7 i + 1) % Config.q

/-- round_nearest(a / m) for m > 0 in its integer form (R119): exact halves round up. -/
def roundNearest (a m : Int) : Int := (2 * a + m) / (2 * m)

/-- compress1(x, d) = round_nearest((2^d * x) / 3329) mod 2^d (R124). -/
def compress1 (x : Int) (d : Nat) : Int := roundNearest (2 ^ d * x) Config.q % 2 ^ d

/-- decompress1(y, d) = round_nearest((3329 * y) / 2^d) (R125). -/
def decompress1 (y : Int) (d : Nat) : Int := roundNearest (Config.q * y) (2 ^ d)

/-- The integer whose bit j is entry j of the sequence: sum of b[j] * 2^j. -/
def bitsValue : List Bool → Nat
  | [] => 0
  | b :: bs => b.toNat + 2 * bitsValue bs

/-- The low w bits of v, bit 0 first (R8, R121, R122). -/
def valueBits (w v : Nat) : List Bool := (List.range w).map fun j => v.testBit j

/-- The first `n` fields of `w` bits of a bit sequence, each read low bit first: field k is the sum
of b[w*k + i] * 2^i over i below w (R120 with w = 8, R123 with w = d). -/
def bitFields : Nat → Nat → List Bool → List Nat
  | 0, _, _ => []
  | n + 1, w, b => bitsValue (b.take w) :: bitFields n w (b.drop w)

/-- BitsToBytes (R120), for a sequence whose length is a multiple of 8. -/
def bitsToBytes (b : List Bool) : List Byte :=
  (bitFields (b.length / 8) 8 b).map fun v => BitVec.ofNat 8 v

/-- BytesToBits (R121). -/
def bytesToBits (bytes : List Byte) : List Bool := bytes.flatMap fun x => valueBits 8 x.toNat

/-- ByteEncode(F, d) (R122): the d-bit fields of the values, low bit first, packed into bytes. -/
def byteEncode (f : List Int) (d : Nat) : List Byte :=
  bitsToBytes (f.flatMap fun v => valueBits d v.toNat)

/-- ByteDecode's modulus: 2^d when d < 12, 3329 when d = 12 (R123). -/
def decodeModulus (d : Nat) : Int := if d < 12 then 2 ^ d else Config.q

/-- ByteDecode(B, d) (R123): 256 fields of d bits, each reduced modulo `decodeModulus d`. -/
def byteDecode (bytes : List Byte) (d : Nat) : List Int :=
  (bitFields 256 d (bytesToBits bytes)).map fun (v : Nat) => (v : Int) % decodeModulus d

end Sys2Proof.Machine
end

