-- ==== Sys2Proof/Machine/State.lean ====
section
/-!
DEFINITION. The state of the engine (R20), the host's events that have not happened yet and the
answers it has been given (the model's bookkeeping of R27), and the machine right after reset (R39).
-/

namespace Sys2Proof.Machine

/-- The value of STATUS.CAUSE: exactly the five causes of R201 (U6: codes 5 to 15 are never
produced). -/
inductive Cause where
  /-- Code 0: STATUS.FAULT = 0. -/
  | none
  /-- Code 1: the word matches no row of R84. -/
  | illegalCmd
  /-- Code 2: d is 0, 13, 14 or 15. -/
  | illegalD
  /-- Code 3: BREV7 with idx 128 to 255. -/
  | invalidArg
  /-- Code 4: ENCODE or DECOMPRESS with d below 12 and a source cell of 2^d or more. -/
  | operandRange
deriving DecidableEq, Repr

/-- The three address spaces of the host port (R37, R50). -/
inductive Space where
  | coef
  | buf
  | csr
deriving DecidableEq, Repr

/-- The access size n of a transaction: 1, 2 or 4 bytes (R50). -/
inductive Size where
  | one
  | two
  | four
deriving DecidableEq, Repr

/-- A value of n bytes, below 2^(8n), with its size (R50). -/
inductive Payload where
  | one (v : BitVec 8)
  | two (v : BitVec 16)
  | four (v : BitVec 32)
deriving DecidableEq, Repr

/-- What the outside world can do to the engine: a port transaction by space and offset (R50), the
same transaction by its offset in the 8 KiB bus window (R64), and the reset input (R230). -/
inductive HostEvent where
  /-- `MemRead(space, addr, n)`. -/
  | read (sp : Space) (addr : Nat) (n : Size)
  /-- `MemWrite(space, addr, n, v)`, n being the size of the value. -/
  | write (sp : Space) (addr : Nat) (v : Payload)
  /-- A bus read at `BASE + off`. -/
  | busRead (off : BitVec 13) (n : Size)
  /-- A bus write at `BASE + off`. -/
  | busWrite (off : BitVec 13) (v : Payload)
  /-- The hardware reset input `rst` is asserted between two transactions (R230, U9). -/
  | rst
deriving DecidableEq, Repr

/-- The answer to one transaction (R50). -/
inductive Response where
  /-- An admitted write: `OK`. -/
  | ok
  /-- An admitted read: the value. -/
  | data (v : Payload)
  /-- Any transaction R51 does not admit. -/
  | accessError
deriving DecidableEq, Repr

/-- The state. The first six fields are the engine's (R20); the last three are the model's own. -/
structure State where
  /-- The ring registers R[0..7], 256 cells of 12 bits each (R21). -/
  regs : RegFile
  /-- The byte buffer BUF[0..383] (R26). -/
  buf : Buffer
  /-- STATUS.FAULT: the engine is in the fault state (R32). -/
  fault : Bool
  /-- STATUS.CAUSE: why (R32, R201). -/
  cause : Cause
  /-- FCMD: the command word that faulted (R33). -/
  fcmd : Word32
  /-- RESULT.BREV, bits [6:0] of RESULT (R34). -/
  result : BitVec 7
  /-- MODEL: the host's events still to happen, the next one first (R27: a program is a finite list
  of host transactions; popping the head is the index that advances by one). DESIGN CHOICE, log
  entry 4. -/
  pending : List HostEvent
  /-- MODEL: the answers given so far, the latest first (R50). DESIGN CHOICE, log entry 4. -/
  answers : List Response
  /-- MODEL: how many resets the run has seen; only the free values of `Config` read it (R39).
  DESIGN CHOICE, log entry 2. -/
  resets : Nat
deriving DecidableEq, Repr

/-- The reasons a step could stop with a fault of the model: there are none. An engine fault is not
one of them: it is a next state with STATUS.FAULT set (R203); a transaction answered `AccessError`
is not one either (R52). Nobody raises a `Fault`, so it has no constructor. DEDUCED, log entry 7. -/
inductive Fault where
deriving DecidableEq, Repr

/-- The reasons a step could be refused. -/
inductive Refusal where
  /-- An arm of `exec` that has no meaning yet. No arm raises it in this model. Safe: it only stops
  a run. -/
  | notModelled (mnemonic : String)
deriving DecidableEq, Repr

/-- The machine right after power-on (R39): STATUS, FCMD and RESULT are zero; every cell and every
byte holds some value that nothing says which (`Config.powerOnCell`, `Config.powerOnByte`); no host
event is pending and no answer has been given. DESIGN CHOICE, log entries 1, 2 and 4. -/
def State.reset : State where
  regs := tabulate 8 fun r => tabulate 256 fun i => Config.powerOnCell r i
  buf := tabulate 384 fun k => Config.powerOnByte k
  fault := false
  cause := .none
  fcmd := 0#32
  result := 0#7
  pending := []
  answers := []
  resets := 0

end Sys2Proof.Machine
end

