-- ==== Sys2Proof/Machine/Ops.lean ====
section
/-!
DEFINITION. The named operations over the state: reading and writing a ring register, a cell, BUF and
RESULT; taking a fault (R203) and, beside it, the only way out of the fault state, a reset (R206, R230);
giving the host an answer.
-/

namespace Sys2Proof.Machine

/-- `R[r]` (R9). -/
def State.reg (s : State) (r : RegNum) : RingReg := s.regs[r]

/-- `R[r] <- v`, all 256 cells (R9, R25). -/
def State.setReg (s : State) (r : RegNum) (v : RingReg) : State :=
  { s with regs := s.regs.set r v }

/-- `R[r][i] <- v`, one cell, the others of the register kept (R56). -/
def State.setCell (s : State) (r : RegNum) (i : Fin 256) (v : Coef) : State :=
  s.setReg r ((s.reg r).set i v)

/-- `BUF[k] <- v` (R58). -/
def State.setByte (s : State) (k : Fin 384) (v : Byte) : State :=
  { s with buf := s.buf.set k v }

/-- The first bytes of a sequence replaced by `new`, the rest kept. -/
def overlay : List Byte → List Byte → List Byte
  | b :: new, _ :: old => b :: overlay new old
  | [], old => old
  | _ :: _, [] => []

theorem overlay_length (new old : List Byte) : (overlay new old).length = old.length := by
  induction new generalizing old with
  | nil => cases old <;> rfl
  | cons b new ih => cases old <;> simp [overlay, ih]

/-- `BUF[k] <- bytes[k]` for every k below the length of `bytes`; the bytes above keep their
values (R26, R140). -/
def State.writeBuf (s : State) (bytes : List Byte) : State :=
  { s with buf := ⟨⟨overlay bytes s.buf.toList⟩, by simp [overlay_length]⟩ }

/-- `BUF[0 .. m-1]` as a sequence (R141). -/
def State.readBuf (s : State) (m : Nat) : List Byte := s.buf.toList.take m

/-- `CSR.RESULT <- zext_32(v)` (R190). -/
def State.setResult (s : State) (v : BitVec 7) : State := { s with result := v }

/-- `raise Fault(cause)` for the command word `w` (R203): exactly FAULT, CAUSE and FCMD are written,
atomically; no cell, no byte and not RESULT. -/
def State.raiseFault (cause : Cause) (w : Word32) (s : State) : State :=
  { s with fault := true, cause := cause, fcmd := w }

/-- A reset, by `rst` or by CTRL.SRST (R230), the only way out of the fault state (R206): STATUS, FCMD
and RESULT become zero and every cell and byte becomes unspecified. The host's events and answers
are not the engine's and stay. -/
def State.afterReset (s : State) : State :=
  { s with
    regs := tabulate 8 fun r =>
      tabulate 256 fun i => Config.resetCell (s.resets + 1) s.regs s.buf r i
    buf := tabulate 384 fun k => Config.resetByte (s.resets + 1) s.regs s.buf k
    fault := false
    cause := .none
    fcmd := 0#32
    result := 0#7
    resets := s.resets + 1 }

/-- The host is given the answer `r` to its transaction (R50). -/
def State.answer (r : Response) (s : State) : State := { s with answers := r :: s.answers }

end Sys2Proof.Machine
end

