-- ==== Sys2Proof/WellFormed.lean ====
section
/-!
DEFINITION. The operand ranges of the admitted command set (R10, R84's last column): d from 1 to 12
for the four commands that take it, idx at most 127 for BREV7. Register numbers are in range by type.
A command that is not well formed still executes: it takes the fault ILLEGAL_D or INVALID_ARG.
-/

namespace Sys2Proof

/-- The legal values of the operand d, 1 to 12 (R97). -/
def legalD (d : BitVec 4) : Bool :=
  decide (Config.dMin ≤ d.toNat) && decide (d.toNat ≤ Config.dMax)

/-- The legal values of the operand idx, 0 to 127 (R190). -/
def legalIdx (idx : BitVec 8) : Bool := decide (idx.toNat ≤ 127)

/-- The operand check of each row of the opcode map (R84). -/
def Instr.wellFormed : Instr → Bool
  | .encode _ d => legalD d
  | .decode _ d => legalD d
  | .compress _ _ d => legalD d
  | .decompress _ _ d => legalD d
  | .ntt _ _ => true
  | .intt _ _ => true
  | .mulntt _ _ _ => true
  | .add _ _ _ => true
  | .sub _ _ _ => true
  | .brev7 idx => legalIdx idx

end Sys2Proof
end

