-- ==== Sys2Proof/Machine/Operands.lean ====
section
/-!
DEFINITION. The operand forms of the commands (R83): a ring register read as 256 integers and
written from 256 integers, the operand d with its check ILLEGAL_D, and the scan of a source for
OPERAND_RANGE. There is no other form: no memory operand and no addressing mode.
-/

namespace Sys2Proof.Machine

/-- A ring register as a sequence of 256 integers, each 0..4095 (R9). -/
def ints (v : RingReg) : List Int := v.toList.map fun c => (c.toNat : Int)

/-- The first `n` integers of a sequence as cells, zero where the sequence has none. -/
def cellsOf : Nat → List Int → List Coef
  | 0, _ => []
  | n + 1, [] => 0#12 :: cellsOf n []
  | n + 1, v :: vs => BitVec.ofInt 12 v :: cellsOf n vs

theorem cellsOf_length (n : Nat) (vs : List Int) : (cellsOf n vs).length = n := by
  induction n generalizing vs with
  | zero => rfl
  | succ n ih => cases vs <;> simp [cellsOf, ih]

/-- The ring register that holds a sequence of 256 integers, each below 2^12. -/
def ofInts (vs : List Int) : RingReg := ⟨⟨cellsOf 256 vs⟩, by simp [cellsOf_length]⟩

/-- `f[j]` of a working sequence, for j inside it (R9). -/
def entry (f : List Int) (j : Nat) : Int := f.getD j 0

/-- `R[r]` read as integers. -/
def State.source (s : State) (r : RegNum) : List Int := ints (s.reg r)

/-- `R[r] <- vs`. -/
def State.setDest (s : State) (r : RegNum) (vs : List Int) : State := s.setReg r (ofInts vs)

/-- The condition of OPERAND_RANGE (R201): d is below 12 and some cell is 2^d or more. -/
def outOfRange (f : List Int) (d : Nat) : Bool := decide (d < 12) && f.any fun v => decide (2 ^ d ≤ v)

/-- The check of the operand d (R95 step 2): with d legal the command goes on, else it faults
ILLEGAL_D. FCMD is the word of the command, which its operands determine (DEDUCED, log entry 3). -/
def withLegalD (i : Instr) (d : BitVec 4) (s : State) (body : Nat → State) : State :=
  if legalD d then body d.toNat else s.raiseFault .illegalD (encode i)

end Sys2Proof.Machine
end

