-- ==== Sys2Proof/Machine/Codec.lean ====
section
/-! DEFINITION. The coefficient codec: ENCODE (R140) and DECODE (R141). -/

namespace Sys2Proof.Machine

/-- `ENCODE ra, d` (R140): ILLEGAL_D, then OPERAND_RANGE, then BUF[0 .. 32*d-1] <- ByteEncode(R[ra], d). -/
def execEncode (ra : RegNum) (d : BitVec 4) (s : State) : Host.Outcome State Fault Refusal :=
  .next <| withLegalD (.encode ra d) d s fun d' =>
    if outOfRange (s.source ra) d' then s.raiseFault .operandRange (encode (.encode ra d))
    else s.writeBuf (byteEncode (s.source ra) d')

/-- `DECODE rd, d` (R141): ILLEGAL_D, then R[rd] <- ByteDecode(BUF[0 .. 32*d-1], d). -/
def execDecode (rd : RegNum) (d : BitVec 4) (s : State) : Host.Outcome State Fault Refusal :=
  .next <| withLegalD (.decode rd d) d s fun d' =>
    s.setDest rd (byteDecode (s.readBuf (32 * d')) d')

end Sys2Proof.Machine
end

