-- ==== Sys2Proof/Machine/Lossy.lean ====
section
/-! DEFINITION. Lossy compression: COMPRESS (R151) and DECOMPRESS (R152). -/

namespace Sys2Proof.Machine

/-- `COMPRESS rd, ra, d` (R151): ILLEGAL_D, then R[rd][i] <- compress1(R[ra][i], d) for every i; cells
of 3329 to 4095 by the same formula, not reduced first. -/
def execCompress (rd ra : RegNum) (d : BitVec 4) (s : State) : Host.Outcome State Fault Refusal :=
  .next <| withLegalD (.compress rd ra d) d s fun d' =>
    s.setDest rd ((s.source ra).map fun x => compress1 x d')

/-- `DECOMPRESS rd, ra, d` (R152): ILLEGAL_D, then OPERAND_RANGE, then
R[rd][i] <- decompress1(R[ra][i], d) for every i. -/
def execDecompress (rd ra : RegNum) (d : BitVec 4) (s : State) : Host.Outcome State Fault Refusal :=
  .next <| withLegalD (.decompress rd ra d) d s fun d' =>
    if outOfRange (s.source ra) d' then s.raiseFault .operandRange (encode (.decompress rd ra d))
    else s.setDest rd ((s.source ra).map fun y => decompress1 y d')

end Sys2Proof.Machine
end

