-- ==== Sys2Proof/Machine/Pointwise.lean ====
section
/-! DEFINITION. The pointwise modular multiplier: MULNTT (R170, R171). -/

namespace Sys2Proof.Machine

/-- The two values of basemul(a0, a1, b0, b1, g) (R170). -/
def basemul (a0 a1 b0 b1 g : Int) : List Int :=
  [modq (a0 * b0 + a1 * b1 * g), modq (a0 * b1 + a1 * b0)]

/-- The product of the 128 blocks, block i with the twist gamma(i) (R171). -/
def mulBlocks (a b : List Int) : List Int :=
  (List.range 128).flatMap fun i =>
    basemul (entry a (2 * i)) (entry a (2 * i + 1)) (entry b (2 * i)) (entry b (2 * i + 1)) (gamma i)

/-- `MULNTT rd, ra, rb` (R171). -/
def execMulntt (rd ra rb : RegNum) (s : State) : Host.Outcome State Fault Refusal :=
  .next (s.setDest rd (mulBlocks (s.source ra) (s.source rb)))

end Sys2Proof.Machine
end

