-- ==== Sys2Proof/Machine/RingAddSub.lean ====
section
/-! DEFINITION. The ring adder and subtractor: ADD (R181) and SUB (R182). -/

namespace Sys2Proof.Machine

/-- `ADD rd, ra, rb` (R181): R[rd][i] <- modq(R[ra][i] + R[rb][i]). -/
def execAdd (rd ra rb : RegNum) (s : State) : Host.Outcome State Fault Refusal :=
  .next (s.setDest rd (List.zipWith (fun a b => modq (a + b)) (s.source ra) (s.source rb)))

/-- `SUB rd, ra, rb` (R182): R[rd][i] <- modq(R[ra][i] - R[rb][i]), first source minus second. -/
def execSub (rd ra rb : RegNum) (s : State) : Host.Outcome State Fault Refusal :=
  .next (s.setDest rd (List.zipWith (fun a b => modq (a - b)) (s.source ra) (s.source rb)))

end Sys2Proof.Machine
end

