-- ==== Sys2Proof/Machine/System.lean ====
section
/-! DEFINITION. The system command: BREV7 (R190). -/

namespace Sys2Proof.Machine

/-- `BREV7 idx` (R190): INVALID_ARG when idx is 128 to 255, else RESULT <- bitrev7(idx). -/
def execBrev7 (idx : BitVec 8) (s : State) : Host.Outcome State Fault Refusal :=
  .next <| match bitrev7? idx.toNat with
    | none => s.raiseFault .invalidArg (encode (.brev7 idx))
    | some v => s.setResult (BitVec.ofNat 7 v)

end Sys2Proof.Machine
end

