-- ==== Sys2Proof/Machine/Transform.lean ====
section
/-!
DEFINITION. The forward transform NTT (R160, R161) and the inverse transform INTT (R162, R163), as the
sequential pseudocode of the rules: a working copy f of 256 integers, seven rounds, the groups of a
round in increasing order of start, and one twiddle counter i that is never reset.
-/

namespace Sys2Proof.Machine

/-- The forward butterfly at (j, len, z) (R160): both new values are made from the old f[j] and the
old f[j+len]. -/
def butterfly (z : Int) (len : Nat) (f : List Int) (j : Nat) : List Int :=
  let u := entry f j
  let t := modq (z * entry f (j + len))
  (f.set (j + len) (modq (u - t))).set j (modq (u + t))

/-- The inverse butterfly at (j, len, z) (R162): the difference is f[j+len] - t, in that order. -/
def invButterfly (z : Int) (len : Nat) (f : List Int) (j : Nat) : List Int :=
  let t := entry f j
  let v := entry f (j + len)
  (f.set j (modq (t + v))).set (j + len) (modq (z * (v - t)))

/-- The starts of the groups of the round with block size len, in increasing order: 0, 2*len, ...
(R161, R163). -/
def groupStarts (len : Nat) : List Nat := (List.range (128 / len)).map fun g => g * (2 * len)

/-- One forward group: butterflies j = start to start + len - 1, all with zeta(i); then i goes up by
one (R161). The pair is (f, i). -/
def nttGroup (len : Nat) (fi : List Int × Nat) (start : Nat) : List Int × Nat :=
  ((List.range' start len).foldl (butterfly (zeta fi.2) len) fi.1, fi.2 + 1)

/-- One forward round: its groups in order (R161). -/
def nttRound (fi : List Int × Nat) (len : Nat) : List Int × Nat :=
  (groupStarts len).foldl (nttGroup len) fi

/-- The forward network: len = 128 down to 2, the counter from 1 (R161). -/
def nttNetwork (f : List Int) : List Int :=
  ([128, 64, 32, 16, 8, 4, 2].foldl nttRound (f, 1)).1

/-- One inverse group: inverse butterflies with zeta(i); then i goes down by one (R163). -/
def inttGroup (len : Nat) (fi : List Int × Nat) (start : Nat) : List Int × Nat :=
  ((List.range' start len).foldl (invButterfly (zeta fi.2) len) fi.1, fi.2 - 1)

/-- One inverse round: its groups in order (R163). -/
def inttRound (fi : List Int × Nat) (len : Nat) : List Int × Nat :=
  (groupStarts len).foldl (inttGroup len) fi

/-- The inverse network: len = 2 up to 128, the counter from 127, then every value times 3303
(R163). -/
def inttNetwork (f : List Int) : List Int :=
  (([2, 4, 8, 16, 32, 64, 128].foldl inttRound (f, 127)).1).map fun v => modq (v * Config.ninv)

/-- `NTT rd, ra` (R161). -/
def execNtt (rd ra : RegNum) (s : State) : Host.Outcome State Fault Refusal :=
  .next (s.setDest rd (nttNetwork (s.source ra)))

/-- `INTT rd, ra` (R163). -/
def execIntt (rd ra : RegNum) (s : State) : Host.Outcome State Fault Refusal :=
  .next (s.setDest rd (inttNetwork (s.source ra)))

end Sys2Proof.Machine
end

