-- ==== Sys2Proof/Machine/Dispatch.lean ====
section
/-! DEFINITION. The execution of a decoded command: one arm per row of the opcode map (R84). -/

namespace Sys2Proof.Machine

def exec (i : Instr) (s : State) : Host.Outcome State Fault Refusal :=
  match i with
  | .encode ra d => Sys2Proof.Machine.execEncode ra d s
  | .decode rd d => Sys2Proof.Machine.execDecode rd d s
  | .compress rd ra d => Sys2Proof.Machine.execCompress rd ra d s
  | .decompress rd ra d => Sys2Proof.Machine.execDecompress rd ra d s
  | .ntt rd ra => Sys2Proof.Machine.execNtt rd ra s
  | .intt rd ra => Sys2Proof.Machine.execIntt rd ra s
  | .mulntt rd ra rb => Sys2Proof.Machine.execMulntt rd ra rb s
  | .add rd ra rb => Sys2Proof.Machine.execAdd rd ra rb s
  | .sub rd ra rb => Sys2Proof.Machine.execSub rd ra rb s
  | .brev7 idx => Sys2Proof.Machine.execBrev7 idx s

end Sys2Proof.Machine
end

