-- ==== Sys2Proof/Machine/Flags.lean ====
section
/-!
DEFINITION. The engine has no condition codes (R28): no command computes a flag. The one flag is
STATUS.FAULT, written by `State.raiseFault` and by a reset. Here are the words the readable CSRs
show of the state (R30, R32, R33, R34).
-/

namespace Sys2Proof.Machine

/-- The code of a cause in STATUS.CAUSE (R201). -/
def Cause.code : Cause → BitVec 4
  | .none => 0
  | .illegalCmd => 1
  | .illegalD => 2
  | .invalidArg => 3
  | .operandRange => 4

/-- STATUS as it reads (R32): bit 0 FAULT, bits [7:4] CAUSE, all other bits zero. -/
def State.statusWord (s : State) : Word32 :=
  0#24 ++ s.cause.code ++ 0#3 ++ BitVec.ofBool s.fault

/-- RESULT as it reads (R34): bits [6:0] BREV, all other bits zero. -/
def State.resultWord (s : State) : Word32 := 0#25 ++ s.result

/-- FCMD as it reads (R33). -/
def State.fcmdWord (s : State) : Word32 := s.fcmd

/-- ID as it reads (R30): a constant. -/
def idWord : Word32 := Config.idValue

end Sys2Proof.Machine
end

