-- ==== Sys2Proof/Machine/Port.lean ====
section
/-!
DEFINITION. The host port: which transactions are admitted (R51), what each of them does (R55 to R59),
the bus window (R64), and which host event comes next. A write to CMD outside the fault state is
handed on as a command; everything else is served here.
-/

namespace Sys2Proof.Machine

/-- What the next host event asks of the engine. -/
inductive Request where
  /-- No event is pending: the engine is idle (R216). -/
  | idle
  /-- The event has been served whole: the state after it, its answer given. -/
  | served (s : State)
  /-- The event issues the command word `w` (R31): the state before the command, the answer not yet
  given. -/
  | command (w : Word32) (s : State)
deriving DecidableEq, Repr

/-- The location (r, i) of a COEF offset r*512 + i*2: admitted offsets are even and below 4096
(R37, R51). -/
def coefTarget (addr : Nat) : Option (RegNum × Fin 256) :=
  if addr % 2 = 0 ∧ addr < 4096 then
    some (Fin.ofNat 8 (addr / 512), Fin.ofNat 256 (addr % 512 / 2))
  else none

/-- The location k of a BUF offset (R51). -/
def bufTarget (addr : Nat) : Option (Fin 384) :=
  if addr < 384 then some (Fin.ofNat 384 addr) else none

/-- A coefficient read: zext_16 of the cell (R55). -/
def coefRead (s : State) (addr : Nat) : Response :=
  match coefTarget addr with
  | some (r, i) => .data (.two ((s.reg r)[i].setWidth 16))
  | none => .accessError

/-- A byte read (R57). -/
def bufRead (s : State) (addr : Nat) : Response :=
  match bufTarget addr with
  | some k => .data (.one s.buf[k])
  | none => .accessError

/-- A CSR read: ID, STATUS, FCMD and RESULT are readable (R29, R59). -/
def csrRead (s : State) (addr : Nat) : Response :=
  if addr = 0x00 then .data (.four idWord)
  else if addr = 0x08 then .data (.four s.statusWord)
  else if addr = 0x0C then .data (.four s.fcmdWord)
  else if addr = 0x10 then .data (.four s.resultWord)
  else .accessError

/-- `MemRead(space, addr, n)`: each space admits one size (R51). No read changes any state. -/
def portRead (s : State) (sp : Space) (addr : Nat) (n : Size) : Response :=
  match sp, n with
  | .coef, .two => coefRead s addr
  | .buf, .one => bufRead s addr
  | .csr, .four => csrRead s addr
  | _, _ => .accessError

/-- A transaction that is not admitted: answered `AccessError`, no state of the engine changed
(R51, R52). -/
def refuseAccess (s : State) : Request := .served (s.answer .accessError)

/-- A coefficient write: R[r][i] <- v[11:0] (R56). -/
def coefWrite (s : State) (addr : Nat) (v : BitVec 16) : Request :=
  match coefTarget addr with
  | some (r, i) => .served ((s.setCell r i (v.setWidth 12)).answer .ok)
  | none => refuseAccess s

/-- A byte write (R58). -/
def bufWrite (s : State) (addr : Nat) (v : Byte) : Request :=
  match bufTarget addr with
  | some k => .served ((s.setByte k v).answer .ok)
  | none => refuseAccess s

/-- A write to CMD (R31): outside the fault state it issues the command; in the fault state it is
accepted and dropped, the word not even decoded (R205). -/
def cmdWrite (s : State) (w : Word32) : Request :=
  if s.fault then .served (s.answer .ok) else .command w s

/-- A write to CTRL (R35): bit 0 = 1 resets, in the fault state too; bit 0 = 0 does nothing. -/
def ctrlWrite (s : State) (v : Word32) : Request :=
  if v.getLsbD 0 then .served (s.afterReset.answer .ok) else .served (s.answer .ok)

/-- A CSR write: CMD and CTRL are writable (R29, R59). -/
def csrWrite (s : State) (addr : Nat) (v : Word32) : Request :=
  if addr = 0x04 then cmdWrite s v
  else if addr = 0x14 then ctrlWrite s v
  else refuseAccess s

/-- `MemWrite(space, addr, n, v)` (R51). -/
def portWrite (s : State) (sp : Space) (addr : Nat) (v : Payload) : Request :=
  match sp, v with
  | .coef, .two v => coefWrite s addr v
  | .buf, .one v => bufWrite s addr v
  | .csr, .four v => csrWrite s addr v
  | _, _ => refuseAccess s

/-- The space and offset behind an offset of the bus window; the gaps hold nothing (R64). -/
def busTarget (off : BitVec 13) : Option (Space × Nat) :=
  let a := off.toNat
  if a < 0x1000 then some (.coef, a)
  else if a < 0x1180 then some (.buf, a - 0x1000)
  else if a < 0x1200 then none
  else if a < 0x1218 then some (.csr, a - 0x1200)
  else none

/-- The offset inside the window at BASE of a bus address, if the address is in the window (R64). BASE
is the platform's open parameter, so it is an argument. DESIGN CHOICE, log entry 10. -/
def windowOffset (base a : Nat) : Option (BitVec 13) :=
  if base ≤ a ∧ a < base + Config.windowSize then some (BitVec.ofNat 13 (a - base)) else none

/-- One host event. A transaction in a gap of the bus window is answered `AccessError` (R64); `rst`
is no transaction and is given no answer (R230). -/
def serve (e : HostEvent) (s : State) : Request :=
  match e with
  | .read sp addr n => .served (s.answer (portRead s sp addr n))
  | .write sp addr v => portWrite s sp addr v
  | .busRead off n =>
    match busTarget off with
    | some (sp, addr) => .served (s.answer (portRead s sp addr n))
    | none => refuseAccess s
  | .busWrite off v =>
    match busTarget off with
    | some (sp, addr) => portWrite s sp addr v
    | none => refuseAccess s
  | .rst => .served s.afterReset

/-- The head of the host's events is taken off the list, whatever it does (R27). -/
def fetch (s : State) : Request :=
  match s.pending with
  | [] => .idle
  | e :: rest => serve e { s with pending := rest }

end Sys2Proof.Machine
end

