-- ==== Sys2Proof/Machine/Command.lean ====
section
/-!
DEFINITION. The issue of a command word (R31, R95): decode it, execute it or fault, and answer the host
`OK` in either case (R59).
-/

namespace Sys2Proof.Machine

/-- The command has finished: the write transaction that carried it returns `OK` (R59, R238). -/
def finishCommand : Host.Outcome State Fault Refusal → Host.Outcome State Fault Refusal
  | .next s => .next (s.answer .ok)
  | .fault r => .fault r
  | .refused r => .refused r

/-- The issue of the command word `w` outside the fault state (R31, R95): a word that matches no row
raises ILLEGAL_CMD with FCMD = w; every other word is executed. -/
def issue (w : Word32) (s : State) : Host.Outcome State Fault Refusal :=
  match decode w with
  | .error _ => finishCommand (.next (s.raiseFault .illegalCmd w))
  | .ok i => finishCommand (exec i s)

end Sys2Proof.Machine
end

