-- ==== Sys2Proof/Machine/Step.lean ====
section
/-!
DEFINITION. One step: the next host event, served whole (R65, R238: a write to CMD contains the whole
execution of its command).
-/

namespace Sys2Proof.Machine

/-- One step of the machine: with no event pending the engine is idle and keeps all its state
(R216). -/
def step (s : State) : Host.Outcome State Fault Refusal :=
  match fetch s with
  | .idle => .next s
  | .served t => .next t
  | .command w t => issue w t

/-- `s` with a host write of the word to CMD as the very next event: where this engine takes its next
command from (R27, R31). The word is the low `nbits` bits of `w`, the bits above them zero. STATUS is
not touched: in the fault state the hardware drops the word, and so does the model (R205).
DESIGN CHOICE, log entry 5. -/
def State.withFetchWord (s : State) (nbits w : Nat) : State :=
  { s with
    pending := .write .csr 0x04 (.four (BitVec.ofNat 32 (w % 2 ^ nbits))) :: s.pending }

end Sys2Proof.Machine
end

