-- ==== Sys2Proof/Safety.lean ====
section
/-!
DEFINITION. What counts as a good state and a good run, in the terms the claims use: the invariants of
the CSRs (R32, R33), the ranges of ring elements and compressed values (R22), and a run of the host's
events that ends without a fault (R206).
-/

namespace Sys2Proof.Machine

/-- Every cell is a field value, in [0, 3329) (R22). -/
def isFieldRing (v : RingReg) : Prop := ∀ i : Fin 256, v[i].toNat < 3329

/-- Every cell is a compressed value, in [0, 2^d) (R22). -/
def isCompressedRing (v : RingReg) (d : Nat) : Prop := ∀ i : Fin 256, v[i].toNat < 2 ^ d

/-- The cause that the word FCMD explains (R201): for a word that matches no row ILLEGAL_CMD; for a
matching word with an illegal d or idx the cause of that operand; OPERAND_RANGE only for ENCODE and
DECOMPRESS with d from 1 to 11. -/
def causeFits (c : Cause) (w : Word32) : Prop :=
  match decode w with
  | .error _ => c = .illegalCmd
  | .ok (.encode _ d) => if legalD d then c = .operandRange ∧ d.toNat < 12 else c = .illegalD
  | .ok (.decompress _ _ d) => if legalD d then c = .operandRange ∧ d.toNat < 12 else c = .illegalD
  | .ok (.decode _ d) => c = .illegalD ∧ legalD d = false
  | .ok (.compress _ _ d) => c = .illegalD ∧ legalD d = false
  | .ok (.brev7 idx) => c = .invalidArg ∧ legalIdx idx = false
  | .ok (.ntt _ _) => False
  | .ok (.intt _ _) => False
  | .ok (.mulntt _ _ _) => False
  | .ok (.add _ _ _) => False
  | .ok (.sub _ _ _) => False

/-- The fault record is coherent (R32, R33, R201): outside the fault state CAUSE and FCMD are zero; in
it, the recorded word is one that raises the recorded cause. -/
def State.recordInv (s : State) : Prop :=
  (s.fault = false → s.cause = .none ∧ s.fcmd = 0#32) ∧ (s.fault = true → causeFits s.cause s.fcmd)

/-- The word a host event writes to CMD, if it is such a write, by space and offset or through the bus
window (R31, R64). -/
def HostEvent.command? : HostEvent → Option Word32
  | .write .csr addr (.four w) => if addr = 0x04 then some w else none
  | .busWrite off (.four w) => if off = 0x1204#13 then some w else none
  | _ => none

/-- The host event is a transaction, and so is given exactly one answer (R50); `rst` is not one. -/
def HostEvent.isTransaction : HostEvent → Bool
  | .rst => false
  | _ => true

/-- The value a host event writes to CTRL, if it is such a write (R35, R64). -/
def HostEvent.control? : HostEvent → Option Word32
  | .write .csr addr (.four v) => if addr = 0x14 then some v else none
  | .busWrite off (.four v) => if off = 0x1214#13 then some v else none
  | _ => none

/-- The host event resets the engine: `rst`, or a write to CTRL with bit 0 = 1 (R230). -/
def HostEvent.isReset (e : HostEvent) : Bool :=
  match e.control? with
  | some v => v.getLsbD 0
  | none => !e.isTransaction

/-- The transactions R51 admits, row by row of its table; `rst` and bus transactions are not of its form. -/
def HostEvent.admitted : HostEvent → Prop
  | .read .coef addr .two => addr % 2 = 0 ∧ addr ≤ 4094
  | .write .coef addr (.two _) => addr % 2 = 0 ∧ addr ≤ 4094
  | .read .buf addr .one => addr ≤ 383
  | .write .buf addr (.one _) => addr ≤ 383
  | .read .csr addr .four => addr = 0x00 ∨ addr = 0x08 ∨ addr = 0x0C ∨ addr = 0x10
  | .write .csr addr (.four _) => addr = 0x04 ∨ addr = 0x14
  | _ => False

/-- The register one of whose cells a host event writes (R56). -/
def HostEvent.writesCellOf : HostEvent → Option RegNum
  | .write .coef addr (.two _) =>
    if addr % 2 = 0 ∧ addr ≤ 4094 then some (Fin.ofNat 8 (addr / 512)) else none
  | .busWrite off (.two _) =>
    if off.toNat % 2 = 0 ∧ off.toNat ≤ 4094 then some (Fin.ofNat 8 (off.toNat / 512)) else none
  | _ => none

/-- The byte of BUF a host event writes (R58). -/
def HostEvent.writesByte : HostEvent → Option Nat
  | .write .buf addr (.one _) => if addr ≤ 383 then some addr else none
  | .busWrite off (.one _) =>
    if 0x1000 ≤ off.toNat ∧ off.toNat ≤ 0x117F then some (off.toNat - 0x1000) else none
  | _ => none

/-- A run of the host's pending events that ends in `t` (R239). -/
def runsTo (s t : State) : Prop := Sys2Proof.core.run s.pending.length s = .next t

/-- A run that succeeds: it ends, and not in the fault state (R206: a state with FAULT = 1 is not
successful). -/
def succeeds (s t : State) : Prop := runsTo s t ∧ t.fault = false

end Sys2Proof.Machine
end

