-- ==== Sys2Proof/Certificates/Slice0/Obligations.lean ====
section
/-!
DEFINITION. The statements for the provers. Each says which rule of the spec it formalises; a clause
that rests on a choice of the model names the log entry.
-/

namespace Sys2Proof.Claims

open Sys2Proof.Machine

/-! ### Terms of the statements -/

/-- The value of cell k of a ring register, for k below 256. -/
def cell (v : RingReg) (k : Nat) : Nat := (v.getD k 0#12).toNat

/-- The value of BUF[k], for k below 384. -/
def byte (s : State) (k : Nat) : Nat := (s.buf.getD k 0#8).toNat

/-- No cell of any register has changed, but for the register `rd`. -/
def otherRegsKept (rd : RegNum) (s t : State) : Prop :=
  ∀ r, r ≠ rd → ∀ k, k < 256 → cell (t.reg r) k = cell (s.reg r) k

/-- No cell of any register has changed. -/
def regsKept (s t : State) : Prop := ∀ r, ∀ k, k < 256 → cell (t.reg r) k = cell (s.reg r) k

/-- No byte of BUF at or above `m` has changed. -/
def bytesKeptFrom (m : Nat) (s t : State) : Prop := ∀ k, m ≤ k → k < 384 → byte t k = byte s k

/-- STATUS and FCMD have not changed. -/
def recordKept (s t : State) : Prop := t.fault = s.fault ∧ t.cause = s.cause ∧ t.fcmd = s.fcmd

/-- The model's bookkeeping has not changed: pending events, answers, the count of resets. -/
def hostKept (s t : State) : Prop :=
  t.pending = s.pending ∧ t.answers = s.answers ∧ t.resets = s.resets

/-- Frame of a command with destination register `rd`: nothing but R[rd] has changed. -/
def onlyDest (rd : RegNum) (s t : State) : Prop :=
  otherRegsKept rd s t ∧ bytesKeptFrom 0 s t ∧ recordKept s t ∧ t.result = s.result ∧ hostKept s t

/-- Frame of ENCODE: nothing but the first `m` bytes of BUF has changed. -/
def onlyBytesBelow (m : Nat) (s t : State) : Prop :=
  regsKept s t ∧ bytesKeptFrom m s t ∧ recordKept s t ∧ t.result = s.result ∧ hostKept s t

/-- Frame of BREV7: nothing but RESULT has changed. -/
def onlyResult (s t : State) : Prop :=
  regsKept s t ∧ bytesKeptFrom 0 s t ∧ recordKept s t ∧ hostKept s t

/-- The fault entry of R203: FAULT, CAUSE and FCMD are written, and nothing else has changed. -/
def onlyRecorded (c : Cause) (w : Word32) (s t : State) : Prop :=
  t.fault = true ∧ t.cause = c ∧ t.fcmd = w ∧ regsKept s t ∧ bytesKeptFrom 0 s t ∧
    t.result = s.result ∧ hostKept s t

/-- A host write of the word `w` to CMD, by space and offset. -/
def cmdEvent (w : Word32) : HostEvent := .write .csr 0x04 (.four w)

/-- The state in which the host's next event has been answered with `a` and has done nothing else. -/
def answered (a : Response) (rest : List HostEvent) (s : State) : State :=
  { s with pending := rest, answers := a :: s.answers }

/-- The malformed words of R96, field by field of R81 and format by format of R82. -/
def malformed (w : Word32) : Prop :=
  let op := (w.extractLsb' 0 8).toNat
  let rd := (w.extractLsb' 8 4).toNat
  let ra := (w.extractLsb' 12 4).toNat
  let rb := (w.extractLsb' 16 4).toNat
  let d := (w.extractLsb' 20 4).toNat
  let z := (w.extractLsb' 24 8).toNat
  op = 0 ∨ 0x0B ≤ op ∨ z ≠ 0 ∨
  (op = 0x01 ∧ (rb ≠ 0 ∨ 8 ≤ ra ∨ rd ≠ 0)) ∨
  (op = 0x02 ∧ (rb ≠ 0 ∨ ra ≠ 0 ∨ 8 ≤ rd)) ∨
  ((op = 0x03 ∨ op = 0x04) ∧ (rb ≠ 0 ∨ 8 ≤ ra ∨ 8 ≤ rd)) ∨
  ((op = 0x05 ∨ op = 0x06) ∧ (d ≠ 0 ∨ rb ≠ 0 ∨ 8 ≤ ra ∨ 8 ≤ rd)) ∨
  ((op = 0x07 ∨ op = 0x08 ∨ op = 0x09) ∧ (d ≠ 0 ∨ 8 ≤ rb ∨ 8 ≤ ra ∨ 8 ≤ rd)) ∨
  (op = 0x0A ∧ (d ≠ 0 ∨ rd ≠ 0))

/-- The word `w` has an operand d outside 1..12 (R95 step 2). -/
def hasIllegalD (w : Word32) : Prop :=
  let op := (w.extractLsb' 0 8).toNat
  let d := (w.extractLsb' 20 4).toNat
  (op = 0x01 ∨ op = 0x02 ∨ op = 0x03 ∨ op = 0x04) ∧ (d = 0 ∨ d = 13 ∨ d = 14 ∨ d = 15)

/-- The word `w` is BREV7 with idx of 128 or more (R95 step 3). -/
def hasIllegalIdx (w : Word32) : Prop :=
  (w.extractLsb' 0 8).toNat = 0x0A ∧ 128 ≤ (w.extractLsb' 12 8).toNat

/-- The word `w` is ENCODE or DECOMPRESS with d below 12 and a source cell of 2^d or more (R201). -/
def hasWideCell (w : Word32) (s : State) : Prop :=
  let op := (w.extractLsb' 0 8).toNat
  let d := (w.extractLsb' 20 4).toNat
  (op = 0x01 ∨ op = 0x04) ∧ d < 12 ∧
    ∃ k, k < 256 ∧ 2 ^ d ≤ cell (s.reg (w.extractLsb' 12 3).toFin) k

/-- The source of ENCODE or DECOMPRESS is in range: with d below 12 every cell is below 2^d (R201). -/
def inRange (v : RingReg) (d : Nat) : Prop := ∀ k, k < 256 → d < 12 → cell v k < 2 ^ d

/-- The destination register of a command (R23). -/
def destOf : Instr → Option RegNum
  | .encode _ _ => none
  | .decode rd _ => some rd
  | .compress rd _ _ => some rd
  | .decompress rd _ _ => some rd
  | .ntt rd _ => some rd
  | .intt rd _ => some rd
  | .mulntt rd _ _ => some rd
  | .add rd _ _ => some rd
  | .sub rd _ _ => some rd
  | .brev7 _ => none

/-- The commands of a list executed one after another, each from the state the one before it left. -/
def execAll : List Instr → State → Host.Outcome State Fault Refusal
  | [], s => .next s
  | i :: is, s =>
    match exec i s with
    | .next t => execAll is t
    | .fault r => .fault r
    | .refused r => .refused r

/-- All 256 cells are field values (R22). -/
def isField (v : RingReg) : Prop := ∀ k, k < 256 → cell v k < 3329

/-- The two registers hold the same 256 values. -/
def sameCells (v w : RingReg) : Prop := ∀ k, k < 256 → cell v k = cell w k

/-- The two registers hold the same 256 residues modulo 3329. -/
def sameResidues (v w : RingReg) : Prop := ∀ k, k < 256 → cell v k % 3329 = cell w k % 3329

/-- The command `i` completes: it ends in a next state whose R[rd] meets `out`, and nothing but R[rd]
has changed. -/
def writesDest (i : Instr) (rd : RegNum) (s : State) (out : RingReg → Prop) : Prop :=
  ∃ t, exec i s = .next t ∧ out (t.reg rd) ∧ onlyDest rd s t

/-- The commands `i` from `s` and `i'` from `s'` complete with equal contents of R[rd] and R[rd']. -/
def sameResult (i i' : Instr) (rd rd' : RegNum) (s s' : State) : Prop :=
  ∃ t t', exec i s = .next t ∧ exec i' s' = .next t' ∧ sameCells (t.reg rd) (t'.reg rd')

/-- Distance around the circle of residues modulo 3329 (R128). -/
def circleDistance (x y : Int) : Int := min ((x - y) % 3329) ((y - x) % 3329)

/-- round_nearest of a rational number (R118). -/
def roundQ (x : ℚ) : Int := ⌊x + 1 / 2⌋

/-- One forward round with every butterfly at once: the group of cell k is k / (2*len) and its twiddle
index is 128/len plus the group number (R164). -/
def forwardAtOnce (f : List Int) (len : Nat) : List Int :=
  (List.range 256).map fun k =>
    let z := zeta (128 / len + k / (2 * len))
    if k % (2 * len) < len then modq (entry f k + z * entry f (k + len))
    else modq (entry f (k - len) - z * entry f k)

/-- One inverse round with every butterfly at once: the twiddle index is 256/len - 1 less the group
number (R164). -/
def inverseAtOnce (f : List Int) (len : Nat) : List Int :=
  (List.range 256).map fun k =>
    let z := zeta (256 / len - 1 - k / (2 * len))
    if k % (2 * len) < len then modq (entry f k + entry f (k + len))
    else modq (z * (entry f k - entry f (k - len)))

/-- Coefficient k of the product of f and g modulo X^256 + 1, before reduction modulo q (R172). -/
def negacyclic (f g : RingReg) (k : Nat) : Int :=
  ∑ i ∈ Finset.range 256, ∑ j ∈ Finset.range 256,
    (if i + j = k then (cell f i : Int) * cell g j
     else if i + j = k + 256 then -((cell f i : Int) * cell g j) else 0)

end Sys2Proof.Claims

open Sys2Proof Sys2Proof.Machine Sys2Proof.Claims

/-! ### Encoding -/

/-- R81, R83, R84: the decoder gives back every command from its word, every operand at every value
its field admits, d and idx outside their legal range included. -/
def Obligations.DecodeOfEncodeGivesTheCommand : Prop :=
  ∀ i : Instr, decode (encode i) = .ok i

/-- R31 ("All 32 bits of w are significant"), R84: a word that decodes is the word of the command it
decodes to, so no bit of it is dropped. -/
def Obligations.DecodedWordIsTheCommandsWord : Prop :=
  ∀ (w : Word32) (i : Instr), decode w = .ok i → encode i = w

/-- R96: exactly the malformed words match no row, and a malformed word issued outside the fault state
raises ILLEGAL_CMD. -/
def Obligations.MalformedWordsAreIllegal : Prop :=
  ∀ w : Word32,
    ((∃ e, decode w = .error e) ↔ malformed w) ∧
    (malformed w → ∀ (s : State) (rest : List HostEvent),
      s.fault = false → s.pending = cmdEvent w :: rest →
      ∃ t, step s = .next t ∧ onlyRecorded .illegalCmd w (answered .ok rest s) t)

/-- R100: the worked encodings, read and written, and the outcomes of its illegal words. -/
def Obligations.WorkedEncodingsReadAsR100Says : Prop :=
  (decode 0x00105001#32 = .ok (.encode 5 1) ∧ encode (.encode 5 1) = 0x00105001#32) ∧
  (decode 0x00C00202#32 = .ok (.decode 2 12) ∧ encode (.decode 2 12) = 0x00C00202#32) ∧
  (decode 0x00104503#32 = .ok (.compress 5 4 1) ∧ encode (.compress 5 4 1) = 0x00104503#32) ∧
  (decode 0x00A07004#32 = .ok (.decompress 0 7 10) ∧
    encode (.decompress 0 7 10) = 0x00A07004#32) ∧
  (decode 0x00000105#32 = .ok (.ntt 1 0) ∧ encode (.ntt 1 0) = 0x00000105#32) ∧
  (decode 0x00003306#32 = .ok (.intt 3 3) ∧ encode (.intt 3 3) = 0x00003306#32) ∧
  (decode 0x00032407#32 = .ok (.mulntt 4 2 3) ∧ encode (.mulntt 4 2 3) = 0x00032407#32) ∧
  (decode 0x00021008#32 = .ok (.add 0 1 2) ∧ encode (.add 0 1 2) = 0x00021008#32) ∧
  (decode 0x00056709#32 = .ok (.sub 7 6 5) ∧ encode (.sub 7 6 5) = 0x00056709#32) ∧
  (decode 0x0000100A#32 = .ok (.brev7 1) ∧ encode (.brev7 1) = 0x0000100A#32) ∧
  (decode 0x0007F00A#32 = .ok (.brev7 127) ∧ encode (.brev7 127) = 0x0007F00A#32) ∧
  (decode 0x0008000A#32 = .ok (.brev7 128) ∧
    ∀ s, exec (.brev7 128) s = .next (s.raiseFault .invalidArg 0x0008000A#32)) ∧
  (∀ w ∈ [0x00000000#32, 0x00000805#32, 0x00100105#32, 0x01000105#32, 0x0000000B#32],
    ∃ e, decode w = .error e) ∧
  (decode 0x00004503#32 = .ok (.compress 5 4 0) ∧
    ∀ s, exec (.compress 5 4 0) s = .next (s.raiseFault .illegalD 0x00004503#32)) ∧
  (decode 0x00D04503#32 = .ok (.compress 5 4 13) ∧
    ∀ s, exec (.compress 5 4 13) s = .next (s.raiseFault .illegalD 0x00D04503#32))

/-! ### The issue of a command, faults, the fault state -/

/-- R95, R203, R204: outside the fault state the outcome of every word is decided by the four checks in
their order; a fault writes only its record; a command that passes them all executes and does not
fault; the host is answered OK in every case. -/
def Obligations.CommandOutcomeIsTheFirstFailingCheck : Prop :=
  ∀ (s : State) (w : Word32) (rest : List HostEvent),
    s.fault = false → s.pending = cmdEvent w :: rest →
    ∃ t, step s = .next t ∧
      (malformed w → onlyRecorded .illegalCmd w (answered .ok rest s) t) ∧
      (¬ malformed w → hasIllegalD w → onlyRecorded .illegalD w (answered .ok rest s) t) ∧
      (¬ malformed w → ¬ hasIllegalD w → hasIllegalIdx w →
        onlyRecorded .invalidArg w (answered .ok rest s) t) ∧
      (¬ malformed w → ¬ hasIllegalD w → ¬ hasIllegalIdx w → hasWideCell w s →
        onlyRecorded .operandRange w (answered .ok rest s) t) ∧
      (¬ malformed w → ¬ hasIllegalD w → ¬ hasIllegalIdx w → ¬ hasWideCell w s →
        t.fault = false ∧
        ∃ i, decode w = .ok i ∧ exec i (answered .ok rest s) = .next t)

/-- R31, R59, R64: with a write of a word that decodes next among the host's events, by space and offset
or through the bus window, and STATUS.FAULT = 0, one step is the execution of the decoded command,
the event taken off the list and the answer OK given. -/
def Obligations.StepRunsTheDecodedCommand : Prop :=
  ∀ (s t : State) (w : Word32) (i : Instr) (rest : List HostEvent),
    (s.pending = cmdEvent w :: rest ∨ s.pending = .busWrite 0x1204#13 (.four w) :: rest) →
    s.fault = false → decode w = .ok i →
    exec i { s with pending := rest } = .next t → step s = .next (t.answer .ok)

/-- R205: in the fault state a word written to CMD is accepted and dropped: whatever it is, nothing but
the host's bookkeeping changes. -/
def Obligations.FaultStateDropsEveryCommand : Prop :=
  ∀ (s : State) (w : Word32) (rest : List HostEvent),
    s.fault = true →
    (s.pending = cmdEvent w :: rest ∨ s.pending = .busWrite 0x1204#13 (.four w) :: rest) →
    step s = .next (answered .ok rest s)

/-- R33, R205, R206: a step from the fault state either leaves the record of the first fault as it is,
or serves a reset, and then the record is clear. -/
def Obligations.OnlyAResetLeavesTheFaultState : Prop :=
  ∀ (s t : State), s.fault = true → step s = .next t →
    (t.fault = true ∧ t.cause = s.cause ∧ t.fcmd = s.fcmd) ∨
    (t.fault = false ∧ t.cause = .none ∧ t.fcmd = 0#32 ∧
      ∃ e rest, s.pending = e :: rest ∧ e.isReset = true)

/-- R32, R33, R201: every step keeps the coherence of the fault record. -/
def Obligations.EveryStepKeepsTheFaultRecordCoherent : Prop :=
  ∀ s t : State, s.recordInv → step s = .next t → t.recordInv

/-- R32, R33, R39: the fault record is coherent after power-on and after every reset. -/
def Obligations.ResetRecordIsCoherent : Prop :=
  State.reset.recordInv ∧ ∀ s : State, s.afterReset.recordInv

/-- R30, R32, R33, R34, R201: what the readable CSRs show of the state, and the five values of STATUS. -/
def Obligations.CsrWordsShowTheirFields : Prop :=
  ∀ s : State,
    idWord.toNat = 256 + 3329 * 2 ^ 16 ∧
    s.statusWord.toNat =
      (if s.fault then 1 else 0) + 16 * (match s.cause with
        | .none => 0 | .illegalCmd => 1 | .illegalD => 2 | .invalidArg => 3 | .operandRange => 4) ∧
    s.fcmdWord = s.fcmd ∧ s.resultWord.toNat = s.result.toNat ∧
    (s.recordInv → s.statusWord ∈ [0x00#32, 0x11#32, 0x21#32, 0x31#32, 0x41#32])

/-- R95 step 2, R97, R140, R141, R151, R152: an operand d of 0 or 13 to 15 faults ILLEGAL_D in each of
the four commands that take one, whatever the sources hold, and writes only the record. -/
def Obligations.IllegalDFaultsAndWritesOnlyTheRecord : Prop :=
  ∀ (rd ra : RegNum) (d : BitVec 4) (s : State),
    d = 0 ∨ d = 13 ∨ d = 14 ∨ d = 15 →
    ∀ i ∈ [Instr.encode ra d, .decode rd d, .compress rd ra d, .decompress rd ra d],
      ∃ t, exec i s = .next t ∧ onlyRecorded .illegalD (encode i) s t

/-- R140, R152, R201: ENCODE and DECOMPRESS with a legal d below 12 fault OPERAND_RANGE when some cell
of the source is 2^d or more, and write only the record. -/
def Obligations.WideCellFaultsAndWritesOnlyTheRecord : Prop :=
  ∀ (rd ra : RegNum) (d : BitVec 4) (s : State) (k : Nat),
    1 ≤ d.toNat → d.toNat < 12 → k < 256 → 2 ^ d.toNat ≤ cell (s.reg ra) k →
    ∀ i ∈ [Instr.encode ra d, .decompress rd ra d],
      ∃ t, exec i s = .next t ∧ onlyRecorded .operandRange (encode i) s t

/-! ### Reset -/

/-- R39, R30: right after power-on STATUS, FCMD and RESULT read zero and ID its constant. The cells and
bytes are unspecified, and nothing is said of them; that no event is pending, that no answer has been
given and that the count of resets is zero is the model's choice (log entries 2 and 4). -/
def Obligations.PowerOnStateReadsAsR39Says : Prop :=
  State.reset.statusWord = 0#32 ∧ State.reset.fcmdWord = 0#32 ∧ State.reset.resultWord = 0#32 ∧
  idWord = 0x0D010100#32 ∧ State.reset.pending = [] ∧ State.reset.answers = [] ∧
  State.reset.resets = 0

/-- R35: a write to CTRL with bit 0 = 1 performs a reset, in the fault state too: STATUS, FCMD and RESULT
read zero after it (of the cells and bytes nothing is said: a reset leaves them unspecified). With bit
0 = 0 it does nothing. Bits [31:1] make no difference; the answer is OK. CTRL is write-only: a read of
it, of any size, is answered AccessError and changes nothing. -/
def Obligations.CtrlWriteResetsOnBitZero : Prop :=
  ∀ (s : State) (rest : List HostEvent),
    (∀ v : Word32, s.pending = .write .csr 0x14 (.four v) :: rest →
      (v.getLsbD 0 = false → step s = .next (answered .ok rest s)) ∧
      (v.getLsbD 0 = true → ∃ t, step s = .next t ∧
        t.statusWord = 0#32 ∧ t.fcmdWord = 0#32 ∧ t.resultWord = 0#32 ∧
        t.pending = rest ∧ t.answers = .ok :: s.answers)) ∧
    (∀ n : Size, s.pending = .read .csr 0x14 n :: rest →
      step s = .next (answered .accessError rest s))

/-- R230, R39: the reset input clears STATUS, FCMD and RESULT from every state; the host's list and its
answers are not the engine's and stay (log entry 4); the count of resets that picks the free contents
goes up by one (log entry 2). -/
def Obligations.ResetInputClearsTheRecord : Prop :=
  ∀ (s : State) (rest : List HostEvent), s.pending = .rst :: rest →
    ∃ t, step s = .next t ∧ t.fault = false ∧ t.cause = .none ∧ t.fcmd = 0#32 ∧ t.result = 0#7 ∧
      t.pending = rest ∧ t.answers = s.answers ∧ t.resets = s.resets + 1

/-! ### The host port -/

/-- R55, R56: a coefficient read returns the cell zero-extended and changes nothing; a coefficient write
stores bits [11:0] of its value in that cell and changes no other; both in the fault state too. -/
def Obligations.CoefficientAccessReadsAndWritesOneCell : Prop :=
  ∀ (s : State) (r : RegNum) (i : Fin 256) (rest : List HostEvent),
    (s.pending = .read .coef (r.val * 512 + i.val * 2) .two :: rest →
      ∃ v : BitVec 16, step s = .next (answered (.data (.two v)) rest s) ∧
        v.toNat = cell (s.reg r) i) ∧
    (∀ v : BitVec 16, s.pending = .write .coef (r.val * 512 + i.val * 2) (.two v) :: rest →
      ∃ t, step s = .next t ∧ onlyDest r (answered .ok rest s) t ∧
        cell (t.reg r) i = v.toNat % 4096 ∧
        ∀ k, k < 256 → k ≠ i.val → cell (t.reg r) k = cell (s.reg r) k)

/-- R57, R58: a byte read returns BUF[k] and changes nothing; a byte write stores its value in BUF[k] and
changes no other byte; both in the fault state too. -/
def Obligations.ByteAccessReadsAndWritesOneByte : Prop :=
  ∀ (s : State) (k : Fin 384) (rest : List HostEvent),
    (s.pending = .read .buf k.val .one :: rest →
      ∃ v : BitVec 8, step s = .next (answered (.data (.one v)) rest s) ∧ v.toNat = byte s k) ∧
    (∀ v : BitVec 8, s.pending = .write .buf k.val (.one v) :: rest →
      ∃ t, step s = .next t ∧ regsKept s t ∧ recordKept s t ∧ t.result = s.result ∧
        hostKept (answered .ok rest s) t ∧ byte t k = v.toNat ∧
        ∀ k', k' < 384 → k' ≠ k.val → byte t k' = byte s k')

/-- R59: a CSR read at 0x00, 0x08, 0x0C or 0x10 returns ID, STATUS, FCMD or RESULT and changes
nothing. -/
def Obligations.CsrReadReturnsItsRegister : Prop :=
  ∀ (s : State) (addr : Nat) (rest : List HostEvent),
    s.pending = .read .csr addr .four :: rest →
    (addr = 0x00 → step s = .next (answered (.data (.four 0x0D010100#32)) rest s)) ∧
    (addr = 0x08 → step s = .next (answered (.data (.four s.statusWord)) rest s)) ∧
    (addr = 0x0C → step s = .next (answered (.data (.four s.fcmd)) rest s)) ∧
    (addr = 0x10 → step s = .next (answered (.data (.four s.resultWord)) rest s))

/-- R51, R52, R62: a transaction outside the table of R51 is answered AccessError and changes no state
of the engine; one inside it is not answered AccessError. -/
def Obligations.AccessErrorExactlyOutsideTheTable : Prop :=
  ∀ (s : State) (sp : Space) (addr : Nat) (rest : List HostEvent),
    (∀ n : Size, s.pending = .read sp addr n :: rest →
      (¬ (HostEvent.read sp addr n).admitted →
        step s = .next (answered .accessError rest s)) ∧
      ((HostEvent.read sp addr n).admitted →
        ∃ v, step s = .next (answered (.data v) rest s))) ∧
    (∀ v : Payload, s.pending = .write sp addr v :: rest →
      (¬ (HostEvent.write sp addr v).admitted →
        step s = .next (answered .accessError rest s)) ∧
      ((HostEvent.write sp addr v).admitted →
        ∃ t, step s = .next t ∧ t.pending = rest ∧ t.answers = .ok :: s.answers))

/-- R64: inside the window COEF, BUF and CSR lie at 0x0000, 0x1000 and 0x1200; an access in a gap is
answered AccessError; and the offset of a bus address in the window is its distance from BASE. -/
def Obligations.BusWindowLiesAsR64Says : Prop :=
  (∀ (s : State) (off : BitVec 13) (rest : List HostEvent) (sp : Space) (addr : Nat),
    (sp = .coef ∧ addr < 0x1000 ∧ off.toNat = addr) ∨
      (sp = .buf ∧ addr < 0x180 ∧ off.toNat = 0x1000 + addr) ∨
      (sp = .csr ∧ addr < 0x18 ∧ off.toNat = 0x1200 + addr) →
    (∀ n, step { s with pending := .busRead off n :: rest } =
      step { s with pending := .read sp addr n :: rest }) ∧
    (∀ v, step { s with pending := .busWrite off v :: rest } =
      step { s with pending := .write sp addr v :: rest })) ∧
  (∀ (s : State) (off : BitVec 13) (rest : List HostEvent),
    (0x1180 ≤ off.toNat ∧ off.toNat < 0x1200) ∨ 0x1218 ≤ off.toNat →
    (∀ n, step { s with pending := .busRead off n :: rest } =
      .next (answered .accessError rest s)) ∧
    (∀ v, step { s with pending := .busWrite off v :: rest } =
      .next (answered .accessError rest s))) ∧
  (∀ (base a : Nat) (off : BitVec 13),
    windowOffset base a = some off ↔ base ≤ a ∧ a < base + 8192 ∧ base + off.toNat = a)

/-- R65, R63: a coefficient read returns the value of the latest coefficient write to its location, and
one to another location what was there before it. -/
def Obligations.ReadReturnsTheLatestWrite : Prop :=
  ∀ (s t u : State) (r r' : RegNum) (i i' : Fin 256) (v : BitVec 16) (rest : List HostEvent),
    s.pending = .write .coef (r.val * 512 + i.val * 2) (.two v) ::
      .read .coef (r'.val * 512 + i'.val * 2) .two :: rest →
    step s = .next t → step t = .next u →
    ∃ x : BitVec 16, u.answers = .data (.two x) :: .ok :: s.answers ∧
      x.toNat = if r' = r ∧ i' = i then v.toNat % 4096 else cell (s.reg r') i'

/-- R216: with no event pending the engine is idle and keeps all its state. -/
def Obligations.IdleEngineKeepsItsState : Prop :=
  ∀ s : State, s.pending = [] → step s = .next s

/-- R239 ("the engine cannot hang"): a step from any state ends in a next state, never in a fault of the
model or a refusal. -/
def Obligations.EveryStepCompletes : Prop :=
  ∀ s : State, ∃ t, step s = .next t

/-- R27, R50: whatever an event does, also when its command faults or is dropped, the step takes exactly
that event off the list and gives exactly one answer to a transaction and none to `rst`. -/
def Obligations.EveryStepServesOneEvent : Prop :=
  ∀ (s t : State) (e : HostEvent) (rest : List HostEvent),
    s.pending = e :: rest → step s = .next t →
    t.pending = rest ∧
    (e.isTransaction = true → ∃ a, t.answers = a :: s.answers) ∧
    (e.isTransaction = false → t.answers = s.answers)

/-- R239 ("A host program made of finitely many transactions therefore always runs to its end"): as many
steps as there are pending events end in a next state with none pending, each transaction
answered. -/
def Obligations.HostProgramRunsToItsEnd : Prop :=
  ∀ s : State, ∃ t, runsTo s t ∧ t.pending = [] ∧
    t.answers.length = s.answers.length + (s.pending.filter HostEvent.isTransaction).length

/-! ### Who writes what -/

/-- R20, R23, R25: a step changes a cell of a ring register only by a reset, by a coefficient write to
that register, or by a command, issued outside the fault state, that names it as destination. -/
def Obligations.RegisterChangesOnlyByItsWriters : Prop :=
  ∀ (s t : State) (r : RegNum) (k : Nat), step s = .next t → k < 256 →
    cell (t.reg r) k ≠ cell (s.reg r) k →
    ∃ e rest, s.pending = e :: rest ∧
      (e.isReset = true ∨ e.writesCellOf = some r ∨
        ∃ w i, e.command? = some w ∧ s.fault = false ∧ decode w = .ok i ∧ destOf i = some r)

/-- R20, R26: a step changes a byte of BUF only by a reset, by a byte write to that byte, or by an
ENCODE, issued outside the fault state, whose 32*d bytes reach it. -/
def Obligations.ByteChangesOnlyByItsWriters : Prop :=
  ∀ (s t : State) (k : Nat), step s = .next t → k < 384 → byte t k ≠ byte s k →
    ∃ e rest, s.pending = e :: rest ∧
      (e.isReset = true ∨ e.writesByte = some k ∨
        ∃ w ra d, e.command? = some w ∧ s.fault = false ∧ decode w = .ok (.encode ra d) ∧
          k < 32 * d.toNat)

/-- R34: a step changes RESULT only by a reset or by a BREV7 that does not fault. -/
def Obligations.ResultChangesOnlyByBrev7OrReset : Prop :=
  ∀ (s t : State), step s = .next t → t.result ≠ s.result →
    ∃ e rest, s.pending = e :: rest ∧
      (e.isReset = true ∨
        ∃ w idx, e.command? = some w ∧ s.fault = false ∧ decode w = .ok (.brev7 idx) ∧
          idx.toNat ≤ 127 ∧ t.fault = false)

/-! ### The codec -/

/-- R140, R122, R120: ENCODE with a legal d and a source in range completes: bit j of BUF[k] is bit
(8k+j) mod d of cell (8k+j) div d, for the first 32*d bytes, and nothing else changes. -/
def Obligations.EncodePacksCellBitsIntoBuf : Prop :=
  ∀ (ra : RegNum) (d : BitVec 4) (s : State),
    1 ≤ d.toNat → d.toNat ≤ 12 → inRange (s.reg ra) d.toNat →
    ∃ t, exec (.encode ra d) s = .next t ∧
      (∀ k j, k < 32 * d.toNat → j < 8 →
        (byte t k).testBit j =
          (cell (s.reg ra) ((8 * k + j) / d.toNat)).testBit ((8 * k + j) % d.toNat)) ∧
      onlyBytesBelow (32 * d.toNat) s t

/-- R141, R123, R121: DECODE with a legal d completes: each cell is its d-bit field of BUF, low bit
first, modulo 2^d below 12 and modulo 3329 at 12, and nothing else changes. -/
def Obligations.DecodeUnpacksBufIntoCells : Prop :=
  ∀ (rd : RegNum) (d : BitVec 4) (s : State), 1 ≤ d.toNat → d.toNat ≤ 12 →
    writesDest (.decode rd d) rd s fun v => ∀ i, i < 256 →
      cell v i =
        (∑ j ∈ Finset.range d.toNat,
          ((byte s ((i * d.toNat + j) / 8)).testBit ((i * d.toNat + j) % 8)).toNat * 2 ^ j)
          % (if d.toNat < 12 then 2 ^ d.toNat else 3329)

/-- R141 ("BUF[32*d .. 383] are not read and cannot affect the result"). -/
def Obligations.DecodeIgnoresBytesAboveItsFields : Prop :=
  ∀ (rd rd' : RegNum) (d : BitVec 4) (s s' t t' : State), 1 ≤ d.toNat → d.toNat ≤ 12 →
    (∀ k, k < 32 * d.toNat → byte s k = byte s' k) →
    exec (.decode rd d) s = .next t → exec (.decode rd' d) s' = .next t' →
    sameCells (t.reg rd) (t'.reg rd')

/-- R142: with every cell of R[ra] below 2^d (d below 12) or below 3329 (d = 12), ENCODE and then DECODE
with the same d complete and leave R[rd] equal to R[ra]. -/
def Obligations.DecodeAfterEncodeRestoresTheRegister : Prop :=
  ∀ (rd ra : RegNum) (d : BitVec 4) (s : State), 1 ≤ d.toNat → d.toNat ≤ 12 →
    inRange (s.reg ra) d.toNat → (d.toNat = 12 → isField (s.reg ra)) →
    ∃ t, execAll [.encode ra d, .decode rd d] s = .next t ∧ t.fault = s.fault ∧
      sameCells (t.reg rd) (s.reg ra)

/-- R142: DECODE and then ENCODE with the same d never fault; with d below 12 BUF is as it was, and with
d = 12 it is as it was exactly when every 12-bit field of it was below 3329. -/
def Obligations.EncodeAfterDecodeRestoresTheBytes : Prop :=
  ∀ (rd : RegNum) (d : BitVec 4) (s : State), 1 ≤ d.toNat → d.toNat ≤ 12 →
    ∃ t, execAll [.decode rd d, .encode rd d] s = .next t ∧ t.fault = s.fault ∧
      (d.toNat < 12 → bytesKeptFrom 0 s t) ∧
      (d.toNat = 12 →
        (bytesKeptFrom 0 s t ↔
          ∀ m, m < 128 →
            byte s (3 * m) + 256 * (byte s (3 * m + 1) % 16) < 3329 ∧
            byte s (3 * m + 1) / 16 + 16 * byte s (3 * m + 2) < 3329))

/-- R120, R121: bit i of byte k is bit 8k+i of the sequence, in both directions, and the two functions
undo each other. -/
def Obligations.BitsAndBytesAreInverse : Prop :=
  (∀ b : List Bool, b.length % 8 = 0 →
    bytesToBits (bitsToBytes b) = b ∧ (bitsToBytes b).length = b.length / 8 ∧
    ∀ k, k < b.length / 8 → ∀ i, i < 8 →
      ((bitsToBytes b).getD k 0#8).getLsbD i = b.getD (8 * k + i) false) ∧
  (∀ bytes : List Byte,
    bitsToBytes (bytesToBits bytes) = bytes ∧ (bytesToBits bytes).length = 8 * bytes.length ∧
    ∀ k, k < bytes.length → ∀ i, i < 8 →
      (bytesToBits bytes).getD (8 * k + i) false = (bytes.getD k 0#8).getLsbD i)

/-! ### Compression -/

/-- R119, R118: the integer form of round_nearest, (2*a + m) div (2*m), is the rounding floor(x + 1/2) of
the exact rational a / m, halves going up; and it is the operation the commands use. -/
def Obligations.RoundNearestIsExact : Prop :=
  ∀ a m : Int, 0 ≤ a → 0 < m →
    roundQ ((a : ℚ) / m) = (2 * a + m) / (2 * m) ∧ roundNearest a m = roundQ ((a : ℚ) / m)

/-- R151, R124, R22: COMPRESS with a legal d completes whatever the source holds: each cell is
round_nearest(2^d * x / 3329) mod 2^d of the exact rational, so it is below 2^d, and nothing else
changes. -/
def Obligations.CompressRoundsTheExactQuotient : Prop :=
  ∀ (rd ra : RegNum) (d : BitVec 4) (s : State), 1 ≤ d.toNat → d.toNat ≤ 12 →
    writesDest (.compress rd ra d) rd s fun v => ∀ k, k < 256 →
      (cell v k : Int) = roundQ ((2 : ℚ) ^ d.toNat * cell (s.reg ra) k / 3329) % 2 ^ d.toNat ∧
      cell v k < 2 ^ d.toNat

/-- R152, R125: DECOMPRESS with a legal d and a source in range completes: each cell is
round_nearest(3329 * y / 2^d) of the exact rational, at most 3328, and nothing else changes. -/
def Obligations.DecompressRoundsTheExactQuotient : Prop :=
  ∀ (rd ra : RegNum) (d : BitVec 4) (s : State), 1 ≤ d.toNat → d.toNat ≤ 12 →
    inRange (s.reg ra) d.toNat →
    writesDest (.decompress rd ra d) rd s fun v => ∀ k, k < 256 →
      (cell v k : Int) = roundQ (3329 * (cell (s.reg ra) k : ℚ) / 2 ^ d.toNat) ∧
      cell v k ≤ 3328

/-- R153, R128: COMPRESS and then DECOMPRESS with the same d complete and bring every field value back
to within round_nearest(3329 / 2^(d+1)) of itself around the circle of residues. -/
def Obligations.LossyRoundTripStaysWithinTheBound : Prop :=
  ∀ (r1 r2 ra : RegNum) (d : BitVec 4) (s : State), 1 ≤ d.toNat → d.toNat ≤ 12 →
    isField (s.reg ra) →
    ∃ t, execAll [.compress r1 ra d, .decompress r2 r1 d] s = .next t ∧ t.fault = s.fault ∧
      ∀ k, k < 256 →
        circleDistance (cell (s.reg ra) k) (cell (t.reg r2) k) ≤
          roundNearest 3329 (2 ^ (d.toNat + 1))

/-- R153: DECOMPRESS and then COMPRESS with the same d, from 1 to 11, complete and return every value
below 2^d exactly. -/
def Obligations.CompressAfterDecompressIsExact : Prop :=
  ∀ (r1 r2 ra : RegNum) (d : BitVec 4) (s : State), 1 ≤ d.toNat → d.toNat ≤ 11 →
    inRange (s.reg ra) d.toNat →
    ∃ t, execAll [.decompress r1 ra d, .compress r2 r1 d] s = .next t ∧
      sameCells (t.reg r2) (s.reg ra)

/-! ### The ring commands -/

/-- R22, R23, R161, R163, R171, R181, R182: NTT, INTT, MULNTT, ADD and SUB complete from every state,
whatever the sources hold and whichever registers coincide, write only field values to their
destination and change nothing else. -/
def Obligations.RingCommandsWriteFieldValuesOnly : Prop :=
  ∀ (rd ra rb : RegNum) (s : State),
    ∀ i ∈ [Instr.ntt rd ra, .intt rd ra, .mulntt rd ra rb, .add rd ra rb, .sub rd ra rb],
      writesDest i rd s isField

/-- R160, R162: on a working sequence of 256 integers a forward butterfly at (j, len, z) makes of the
old pair (u, v) = (f[j], f[j+len]) the pair (modq(u + z*v), modq(u - z*v)), an inverse one the pair
(modq(u + v), modq(z * (v - u))), and neither changes any other entry. -/
def Obligations.ButterfliesReplaceOnePair : Prop :=
  ∀ (f : List Int) (z : Int) (j len : Nat), f.length = 256 → 0 < len → j + len < 256 →
    (butterfly z len f j).length = 256 ∧ (invButterfly z len f j).length = 256 ∧
    entry (butterfly z len f j) j = modq (entry f j + z * entry f (j + len)) ∧
    entry (butterfly z len f j) (j + len) = modq (entry f j - z * entry f (j + len)) ∧
    entry (invButterfly z len f j) j = modq (entry f j + entry f (j + len)) ∧
    entry (invButterfly z len f j) (j + len) = modq (z * (entry f (j + len) - entry f j)) ∧
    ∀ k, k < 256 → k ≠ j → k ≠ j + len →
      entry (butterfly z len f j) k = entry f k ∧ entry (invButterfly z len f j) k = entry f k

/-- R166(b): NTT maps the polynomial in R[ra] to its remainders modulo X^2 - gamma(i), pair i of the
result holding the remainder number i, with gamma(i) = 17^(2*bitrev7(i)+1). -/
def Obligations.NttGivesTheRemainders : Prop :=
  ∀ (rd ra : RegNum) (s : State),
    writesDest (.ntt rd ra) rd s fun v => ∀ i, i < 128 →
      cell v (2 * i) =
        (∑ k ∈ Finset.range 128,
          cell (s.reg ra) (2 * k) * (17 ^ (2 * bitrev7 i + 1)) ^ k) % 3329 ∧
      cell v (2 * i + 1) =
        (∑ k ∈ Finset.range 128,
          cell (s.reg ra) (2 * k + 1) * (17 ^ (2 * bitrev7 i + 1)) ^ k) % 3329

/-- R166(a): on field values INTT undoes NTT and NTT undoes INTT, through any registers. -/
def Obligations.TransformsUndoEachOther : Prop :=
  ∀ (r1 r2 ra : RegNum) (s : State), isField (s.reg ra) →
    (∃ t, execAll [.ntt r1 ra, .intt r2 r1] s = .next t ∧ sameCells (t.reg r2) (s.reg ra)) ∧
    (∃ t, execAll [.intt r1 ra, .ntt r2 r1] s = .next t ∧ sameCells (t.reg r2) (s.reg ra))

/-- R166(c): both transforms are linear modulo q, cell by cell, for all integers a, b. -/
def Obligations.TransformsAreLinear : Prop :=
  ∀ (f g : List Int) (a b : Int), f.length = 256 → g.length = 256 →
    nttNetwork (List.zipWith (fun x y => modq (a * x + b * y)) f g) =
      List.zipWith (fun x y => modq (a * x + b * y)) (nttNetwork f) (nttNetwork g) ∧
    inttNetwork (List.zipWith (fun x y => modq (a * x + b * y)) f g) =
      List.zipWith (fun x y => modq (a * x + b * y)) (inttNetwork f) (inttNetwork g)

/-- R167: the result of NTT or INTT on a register equals the result on the same register with every cell
first reduced modulo 3329, and no fault is raised. -/
def Obligations.TransformsReadResiduesOnly : Prop :=
  ∀ (rd ra : RegNum) (s s' : State), (∀ k, k < 256 → cell (s'.reg ra) k = cell (s.reg ra) k % 3329) →
    ∀ i ∈ [Instr.ntt rd ra, .intt rd ra],
      ∃ t t', exec i s = .next t ∧ exec i s' = .next t' ∧ sameCells (t.reg rd) (t'.reg rd) ∧
        t.fault = s.fault ∧ t'.fault = s'.fault

/-- R173, R181, R182, R112: MULNTT, ADD and SUB on sources with equal residues modulo 3329 give equal
results. -/
def Obligations.PairCommandsReadResiduesOnly : Prop :=
  ∀ (rd ra rb : RegNum) (s s' : State),
    sameResidues (s.reg ra) (s'.reg ra) → sameResidues (s.reg rb) (s'.reg rb) →
    ∀ i ∈ [Instr.mulntt rd ra rb, .add rd ra rb, .sub rd ra rb],
      ∃ t t', exec i s = .next t ∧ exec i s' = .next t' ∧ sameCells (t.reg rd) (t'.reg rd)

/-- R164, R242, R161, R163: the sequential networks with one running counter equal the networks that do all
the butterflies of a round at once with the twiddle indices of R164; NTT and INTT complete and leave
the result of those networks in R[rd], and nothing else changes; and the twiddle of an inverse group is
minus the inverse of the forward one. -/
def Obligations.NetworksEqualRoundsAtOnce : Prop :=
  (∀ f : List Int, f.length = 256 →
    nttNetwork f = [128, 64, 32, 16, 8, 4, 2].foldl forwardAtOnce f ∧
    inttNetwork f =
      ([2, 4, 8, 16, 32, 64, 128].foldl inverseAtOnce f).map fun v => modq (v * 3303)) ∧
  (∀ (rd ra : RegNum) (s : State),
    (writesDest (.ntt rd ra) rd s fun v => ∀ k, k < 256 →
      (cell v k : Int) =
        entry ([128, 64, 32, 16, 8, 4, 2].foldl forwardAtOnce (ints (s.reg ra))) k) ∧
    (writesDest (.intt rd ra) rd s fun v => ∀ k, k < 256 →
      (cell v k : Int) =
        modq (entry ([2, 4, 8, 16, 32, 64, 128].foldl inverseAtOnce (ints (s.reg ra))) k * 3303))) ∧
  (∀ len ∈ [2, 4, 8, 16, 32, 64, 128], ∀ g, g < 128 / len →
    modq (zeta (256 / len - 1 - g) * zeta (128 / len + g)) = 3328)

/-- R171, R170, R117: MULNTT completes: block i of the result is the product of the two blocks modulo
X^2 - gamma(i), gamma(i) = 17^(2*bitrev7(i)+1), and nothing but R[rd] changes. -/
def Obligations.MulnttMultipliesBlockByBlock : Prop :=
  ∀ (rd ra rb : RegNum) (s : State),
    writesDest (.mulntt rd ra rb) rd s fun v => ∀ i, i < 128 →
      cell v (2 * i) =
        (cell (s.reg ra) (2 * i) * cell (s.reg rb) (2 * i) +
          cell (s.reg ra) (2 * i + 1) * cell (s.reg rb) (2 * i + 1) *
            17 ^ (2 * bitrev7 i + 1)) % 3329 ∧
      cell v (2 * i + 1) =
        (cell (s.reg ra) (2 * i) * cell (s.reg rb) (2 * i + 1) +
          cell (s.reg ra) (2 * i + 1) * cell (s.reg rb) (2 * i)) % 3329

/-- R171's corner cases: the command is symmetric in its sources, and a source whose pairs are all
(1, 0) gives the other source reduced modulo q. -/
def Obligations.MulnttIsSymmetricWithUnit : Prop :=
  ∀ (rd ra rb : RegNum) (s : State),
    ∃ t u, exec (.mulntt rd ra rb) s = .next t ∧ exec (.mulntt rd rb ra) s = .next u ∧
      sameCells (t.reg rd) (u.reg rd) ∧
      ((∀ i, i < 128 → cell (s.reg ra) (2 * i) = 1 ∧ cell (s.reg ra) (2 * i + 1) = 0) →
        ∀ k, k < 256 → cell (t.reg rd) k = cell (s.reg rb) k % 3329)

/-- R172: NTT, NTT, MULNTT, INTT leave the product of the two polynomials modulo X^256 + 1 and q, where c,
the register of the first transform, is neither b (the second polynomial would be overwritten) nor d
(the first transform would be). Any other registers may coincide. -/
def Obligations.TransformProductIsRingProduct : Prop :=
  ∀ (a b c d e f : RegNum) (s : State), c ≠ b → c ≠ d →
    isField (s.reg a) → isField (s.reg b) →
    ∃ t, execAll [.ntt c a, .ntt d b, .mulntt e c d, .intt f e] s = .next t ∧
      ∀ k, k < 256 → (cell (t.reg f) k : Int) = negacyclic (s.reg a) (s.reg b) k % 3329

/-- R181, R111: ADD completes: each cell is the sum modulo 3329, and nothing but R[rd] changes. -/
def Obligations.AddAddsModuloQ : Prop :=
  ∀ (rd ra rb : RegNum) (s : State),
    writesDest (.add rd ra rb) rd s fun v => ∀ k, k < 256 →
      cell v k = (cell (s.reg ra) k + cell (s.reg rb) k) % 3329

/-- R182, R111: SUB completes: each cell is first minus second source modulo 3329, floor-style, and
nothing but R[rd] changes. -/
def Obligations.SubSubtractsModuloQ : Prop :=
  ∀ (rd ra rb : RegNum) (s : State),
    writesDest (.sub rd ra rb) rd s fun v => ∀ k, k < 256 →
      (cell v k : Int) = ((cell (s.reg ra) k : Int) - cell (s.reg rb) k) % 3329

/-- R183: SUB after ADD, and ADD after SUB, give back a register of field values, and v - 3329 for a
cell v of 3329 or more. -/
def Obligations.AddAndSubUndoEachOther : Prop :=
  ∀ (r2 r3 r0 r1 : RegNum) (s : State), r2 ≠ r1 →
    (∃ t, execAll [.add r2 r0 r1, .sub r3 r2 r1] s = .next t ∧
      ∀ k, k < 256 →
        (cell (s.reg r0) k < 3329 → cell (t.reg r3) k = cell (s.reg r0) k) ∧
        (3329 ≤ cell (s.reg r0) k → cell (t.reg r3) k + 3329 = cell (s.reg r0) k)) ∧
    (∃ t, execAll [.sub r2 r0 r1, .add r3 r2 r1] s = .next t ∧
      ∀ k, k < 256 → cell (s.reg r0) k < 3329 → cell (t.reg r3) k = cell (s.reg r0) k)

/-- R236, R23, R25: the result of a command is a function of the values of its sources alone: two states
that agree on the sources give the same result, whichever registers are the destinations, a source
register included. -/
def Obligations.ResultsDependOnSourcesOnly : Prop :=
  ∀ (rd rd' ra rb : RegNum) (d : BitVec 4) (s s' : State),
    sameCells (s.reg ra) (s'.reg ra) → sameCells (s.reg rb) (s'.reg rb) →
    sameResult (.ntt rd ra) (.ntt rd' ra) rd rd' s s' ∧
    sameResult (.intt rd ra) (.intt rd' ra) rd rd' s s' ∧
    sameResult (.mulntt rd ra rb) (.mulntt rd' ra rb) rd rd' s s' ∧
    sameResult (.add rd ra rb) (.add rd' ra rb) rd rd' s s' ∧
    sameResult (.sub rd ra rb) (.sub rd' ra rb) rd rd' s s' ∧
    (1 ≤ d.toNat → d.toNat ≤ 12 →
      sameResult (.compress rd ra d) (.compress rd' ra d) rd rd' s s') ∧
    (1 ≤ d.toNat → d.toNat ≤ 12 → inRange (s.reg ra) d.toNat →
      sameResult (.decompress rd ra d) (.decompress rd' ra d) rd rd' s s')

/-! ### BREV7 -/

/-- R190, R114: BREV7 with idx from 0 to 127 completes: RESULT is idx with its seven bits in reverse
order, nothing else changes, and reversing twice gives idx back; with idx from 128 to 255 it faults
INVALID_ARG and writes only the record. -/
def Obligations.Brev7ReversesSevenBits : Prop :=
  ∀ (idx : BitVec 8) (s : State),
    (idx.toNat ≤ 127 →
      ∃ t, exec (.brev7 idx) s = .next t ∧
        (∀ j, j < 7 → t.result.getLsbD j = idx.getLsbD (6 - j)) ∧
        bitrev7 t.result.toNat = idx.toNat ∧ onlyResult s t) ∧
    (128 ≤ idx.toNat →
      ∃ t, exec (.brev7 idx) s = .next t ∧ onlyRecorded .invalidArg (encode (.brev7 idx)) s t)
end

