-- ==== Sys2Proof/Laws/State.lean ====
section
/-!
SUPPORT. One lemma per field per update of the state, true by unfolding the update, so that no later
proof unfolds a record update.
-/

namespace Sys2Proof.Machine

variable (s : State)

@[simp] theorem State.setReg_regs (r : RegNum) (v : RingReg) :
    (s.setReg r v).regs = s.regs.set r v := rfl
@[simp] theorem State.setReg_buf (r : RegNum) (v : RingReg) :
    (s.setReg r v).buf = s.buf := rfl
@[simp] theorem State.setReg_fault (r : RegNum) (v : RingReg) :
    (s.setReg r v).fault = s.fault := rfl
@[simp] theorem State.setReg_cause (r : RegNum) (v : RingReg) :
    (s.setReg r v).cause = s.cause := rfl
@[simp] theorem State.setReg_fcmd (r : RegNum) (v : RingReg) :
    (s.setReg r v).fcmd = s.fcmd := rfl
@[simp] theorem State.setReg_result (r : RegNum) (v : RingReg) :
    (s.setReg r v).result = s.result := rfl
@[simp] theorem State.setReg_pending (r : RegNum) (v : RingReg) :
    (s.setReg r v).pending = s.pending := rfl
@[simp] theorem State.setReg_answers (r : RegNum) (v : RingReg) :
    (s.setReg r v).answers = s.answers := rfl
@[simp] theorem State.setReg_resets (r : RegNum) (v : RingReg) :
    (s.setReg r v).resets = s.resets := rfl

@[simp] theorem State.setCell_regs (r : RegNum) (i : Fin 256) (v : Coef) :
    (s.setCell r i v).regs = s.regs.set r ((s.reg r).set i v) := rfl
@[simp] theorem State.setCell_buf (r : RegNum) (i : Fin 256) (v : Coef) :
    (s.setCell r i v).buf = s.buf := rfl
@[simp] theorem State.setCell_fault (r : RegNum) (i : Fin 256) (v : Coef) :
    (s.setCell r i v).fault = s.fault := rfl
@[simp] theorem State.setCell_cause (r : RegNum) (i : Fin 256) (v : Coef) :
    (s.setCell r i v).cause = s.cause := rfl
@[simp] theorem State.setCell_fcmd (r : RegNum) (i : Fin 256) (v : Coef) :
    (s.setCell r i v).fcmd = s.fcmd := rfl
@[simp] theorem State.setCell_result (r : RegNum) (i : Fin 256) (v : Coef) :
    (s.setCell r i v).result = s.result := rfl
@[simp] theorem State.setCell_pending (r : RegNum) (i : Fin 256) (v : Coef) :
    (s.setCell r i v).pending = s.pending := rfl
@[simp] theorem State.setCell_answers (r : RegNum) (i : Fin 256) (v : Coef) :
    (s.setCell r i v).answers = s.answers := rfl
@[simp] theorem State.setCell_resets (r : RegNum) (i : Fin 256) (v : Coef) :
    (s.setCell r i v).resets = s.resets := rfl

@[simp] theorem State.setDest_regs (r : RegNum) (vs : List Int) :
    (s.setDest r vs).regs = s.regs.set r (ofInts vs) := rfl
@[simp] theorem State.setDest_buf (r : RegNum) (vs : List Int) :
    (s.setDest r vs).buf = s.buf := rfl
@[simp] theorem State.setDest_fault (r : RegNum) (vs : List Int) :
    (s.setDest r vs).fault = s.fault := rfl
@[simp] theorem State.setDest_cause (r : RegNum) (vs : List Int) :
    (s.setDest r vs).cause = s.cause := rfl
@[simp] theorem State.setDest_fcmd (r : RegNum) (vs : List Int) :
    (s.setDest r vs).fcmd = s.fcmd := rfl
@[simp] theorem State.setDest_result (r : RegNum) (vs : List Int) :
    (s.setDest r vs).result = s.result := rfl
@[simp] theorem State.setDest_pending (r : RegNum) (vs : List Int) :
    (s.setDest r vs).pending = s.pending := rfl
@[simp] theorem State.setDest_answers (r : RegNum) (vs : List Int) :
    (s.setDest r vs).answers = s.answers := rfl
@[simp] theorem State.setDest_resets (r : RegNum) (vs : List Int) :
    (s.setDest r vs).resets = s.resets := rfl

@[simp] theorem State.setByte_regs (k : Fin 384) (v : Byte) :
    (s.setByte k v).regs = s.regs := rfl
@[simp] theorem State.setByte_buf (k : Fin 384) (v : Byte) :
    (s.setByte k v).buf = s.buf.set k v := rfl
@[simp] theorem State.setByte_fault (k : Fin 384) (v : Byte) :
    (s.setByte k v).fault = s.fault := rfl
@[simp] theorem State.setByte_cause (k : Fin 384) (v : Byte) :
    (s.setByte k v).cause = s.cause := rfl
@[simp] theorem State.setByte_fcmd (k : Fin 384) (v : Byte) :
    (s.setByte k v).fcmd = s.fcmd := rfl
@[simp] theorem State.setByte_result (k : Fin 384) (v : Byte) :
    (s.setByte k v).result = s.result := rfl
@[simp] theorem State.setByte_pending (k : Fin 384) (v : Byte) :
    (s.setByte k v).pending = s.pending := rfl
@[simp] theorem State.setByte_answers (k : Fin 384) (v : Byte) :
    (s.setByte k v).answers = s.answers := rfl
@[simp] theorem State.setByte_resets (k : Fin 384) (v : Byte) :
    (s.setByte k v).resets = s.resets := rfl

@[simp] theorem State.writeBuf_regs (bytes : List Byte) :
    (s.writeBuf bytes).regs = s.regs := rfl
@[simp] theorem State.writeBuf_fault (bytes : List Byte) :
    (s.writeBuf bytes).fault = s.fault := rfl
@[simp] theorem State.writeBuf_cause (bytes : List Byte) :
    (s.writeBuf bytes).cause = s.cause := rfl
@[simp] theorem State.writeBuf_fcmd (bytes : List Byte) :
    (s.writeBuf bytes).fcmd = s.fcmd := rfl
@[simp] theorem State.writeBuf_result (bytes : List Byte) :
    (s.writeBuf bytes).result = s.result := rfl
@[simp] theorem State.writeBuf_pending (bytes : List Byte) :
    (s.writeBuf bytes).pending = s.pending := rfl
@[simp] theorem State.writeBuf_answers (bytes : List Byte) :
    (s.writeBuf bytes).answers = s.answers := rfl
@[simp] theorem State.writeBuf_resets (bytes : List Byte) :
    (s.writeBuf bytes).resets = s.resets := rfl

@[simp] theorem State.setResult_regs (v : BitVec 7) :
    (s.setResult v).regs = s.regs := rfl
@[simp] theorem State.setResult_buf (v : BitVec 7) :
    (s.setResult v).buf = s.buf := rfl
@[simp] theorem State.setResult_fault (v : BitVec 7) :
    (s.setResult v).fault = s.fault := rfl
@[simp] theorem State.setResult_cause (v : BitVec 7) :
    (s.setResult v).cause = s.cause := rfl
@[simp] theorem State.setResult_fcmd (v : BitVec 7) :
    (s.setResult v).fcmd = s.fcmd := rfl
@[simp] theorem State.setResult_result (v : BitVec 7) :
    (s.setResult v).result = v := rfl
@[simp] theorem State.setResult_pending (v : BitVec 7) :
    (s.setResult v).pending = s.pending := rfl
@[simp] theorem State.setResult_answers (v : BitVec 7) :
    (s.setResult v).answers = s.answers := rfl
@[simp] theorem State.setResult_resets (v : BitVec 7) :
    (s.setResult v).resets = s.resets := rfl

@[simp] theorem State.raiseFault_regs (c : Cause) (w : Word32) :
    (s.raiseFault c w).regs = s.regs := rfl
@[simp] theorem State.raiseFault_buf (c : Cause) (w : Word32) :
    (s.raiseFault c w).buf = s.buf := rfl
@[simp] theorem State.raiseFault_fault (c : Cause) (w : Word32) :
    (s.raiseFault c w).fault = true := rfl
@[simp] theorem State.raiseFault_cause (c : Cause) (w : Word32) :
    (s.raiseFault c w).cause = c := rfl
@[simp] theorem State.raiseFault_fcmd (c : Cause) (w : Word32) :
    (s.raiseFault c w).fcmd = w := rfl
@[simp] theorem State.raiseFault_result (c : Cause) (w : Word32) :
    (s.raiseFault c w).result = s.result := rfl
@[simp] theorem State.raiseFault_pending (c : Cause) (w : Word32) :
    (s.raiseFault c w).pending = s.pending := rfl
@[simp] theorem State.raiseFault_answers (c : Cause) (w : Word32) :
    (s.raiseFault c w).answers = s.answers := rfl
@[simp] theorem State.raiseFault_resets (c : Cause) (w : Word32) :
    (s.raiseFault c w).resets = s.resets := rfl

@[simp] theorem State.answer_regs (r : Response) :
    (s.answer r).regs = s.regs := rfl
@[simp] theorem State.answer_buf (r : Response) :
    (s.answer r).buf = s.buf := rfl
@[simp] theorem State.answer_fault (r : Response) :
    (s.answer r).fault = s.fault := rfl
@[simp] theorem State.answer_cause (r : Response) :
    (s.answer r).cause = s.cause := rfl
@[simp] theorem State.answer_fcmd (r : Response) :
    (s.answer r).fcmd = s.fcmd := rfl
@[simp] theorem State.answer_result (r : Response) :
    (s.answer r).result = s.result := rfl
@[simp] theorem State.answer_pending (r : Response) :
    (s.answer r).pending = s.pending := rfl
@[simp] theorem State.answer_answers (r : Response) :
    (s.answer r).answers = r :: s.answers := rfl
@[simp] theorem State.answer_resets (r : Response) :
    (s.answer r).resets = s.resets := rfl

@[simp] theorem State.afterReset_fault :
    (s.afterReset).fault = false := rfl
@[simp] theorem State.afterReset_cause :
    (s.afterReset).cause = .none := rfl
@[simp] theorem State.afterReset_fcmd :
    (s.afterReset).fcmd = 0#32 := rfl
@[simp] theorem State.afterReset_result :
    (s.afterReset).result = 0#7 := rfl
@[simp] theorem State.afterReset_pending :
    (s.afterReset).pending = s.pending := rfl
@[simp] theorem State.afterReset_answers :
    (s.afterReset).answers = s.answers := rfl
@[simp] theorem State.afterReset_resets :
    (s.afterReset).resets = s.resets + 1 := rfl

@[simp] theorem State.withFetchWord_regs (nbits w : Nat) :
    (s.withFetchWord nbits w).regs = s.regs := rfl
@[simp] theorem State.withFetchWord_buf (nbits w : Nat) :
    (s.withFetchWord nbits w).buf = s.buf := rfl
@[simp] theorem State.withFetchWord_fault (nbits w : Nat) :
    (s.withFetchWord nbits w).fault = s.fault := rfl
@[simp] theorem State.withFetchWord_cause (nbits w : Nat) :
    (s.withFetchWord nbits w).cause = s.cause := rfl
@[simp] theorem State.withFetchWord_fcmd (nbits w : Nat) :
    (s.withFetchWord nbits w).fcmd = s.fcmd := rfl
@[simp] theorem State.withFetchWord_result (nbits w : Nat) :
    (s.withFetchWord nbits w).result = s.result := rfl
@[simp] theorem State.withFetchWord_pending (nbits w : Nat) :
    (s.withFetchWord nbits w).pending = .write .csr 0x04 (.four (BitVec.ofNat 32 (w % 2 ^ nbits))) :: s.pending := rfl
@[simp] theorem State.withFetchWord_answers (nbits w : Nat) :
    (s.withFetchWord nbits w).answers = s.answers := rfl
@[simp] theorem State.withFetchWord_resets (nbits w : Nat) :
    (s.withFetchWord nbits w).resets = s.resets := rfl

@[simp] theorem State.reset_fault : State.reset.fault = false := rfl
@[simp] theorem State.reset_cause : State.reset.cause = .none := rfl
@[simp] theorem State.reset_fcmd : State.reset.fcmd = 0#32 := rfl
@[simp] theorem State.reset_result : State.reset.result = 0#7 := rfl
@[simp] theorem State.reset_pending : State.reset.pending = [] := rfl
@[simp] theorem State.reset_answers : State.reset.answers = [] := rfl
@[simp] theorem State.reset_resets : State.reset.resets = 0 := rfl

end Sys2Proof.Machine
end

