-- ==== Sys2Proof/Laws/Registers.lean ====
section
/-!
SUPPORT. What reading a register, a cell or a byte gives after each write: the laws of the named
operations, cited by later proofs in place of their definitions.
-/

namespace Sys2Proof

@[simp] theorem tabulate_getElem {α : Type} (n : Nat) (f : Nat → α) (k : Nat) (h : k < n) :
    (tabulate n f)[k] = f k := by
  simp [tabulate]

namespace Machine

theorem State.reg_eq (s : State) (r : RegNum) : s.reg r = s.regs[r] := rfl

/-- Writing a register and reading it back. -/
@[simp] theorem State.setReg_reg_same (s : State) (r : RegNum) (v : RingReg) :
    (s.setReg r v).reg r = v := by
  simp [State.reg]

/-- Writing a register leaves every other register alone (R23). -/
theorem State.setReg_reg_other (s : State) {r r' : RegNum} (v : RingReg) (h : r' ≠ r) :
    (s.setReg r v).reg r' = s.reg r' := by
  have : r.val ≠ r'.val := fun e => h (Fin.ext e.symm)
  simp [State.reg, this]

theorem State.setReg_reg (s : State) (r r' : RegNum) (v : RingReg) :
    (s.setReg r v).reg r' = if r' = r then v else s.reg r' := by
  split
  · next h => subst h; simp
  · next h => exact s.setReg_reg_other v h

theorem State.setDest_reg (s : State) (r r' : RegNum) (vs : List Int) :
    (s.setDest r vs).reg r' = if r' = r then ofInts vs else s.reg r' :=
  s.setReg_reg r r' (ofInts vs)

@[simp] theorem State.setDest_reg_same (s : State) (r : RegNum) (vs : List Int) :
    (s.setDest r vs).reg r = ofInts vs :=
  s.setReg_reg_same r (ofInts vs)

/-- One written cell changes, no other (R56). -/
theorem State.setCell_reg (s : State) (r r' : RegNum) (i i' : Fin 256) (v : Coef) :
    ((s.setCell r i v).reg r')[i'] = if r' = r ∧ i' = i then v else (s.reg r')[i'] := by
  unfold State.setCell
  rw [State.setReg_reg]
  by_cases hr : r' = r
  · subst hr
    by_cases hi : i' = i
    · subst hi; simp
    · have : i.val ≠ i'.val := fun e => hi (Fin.ext e.symm)
      simp [hi, this]
  · simp [hr]

@[simp] theorem State.setByte_reg (s : State) (k : Fin 384) (v : Byte) (r : RegNum) :
    (s.setByte k v).reg r = s.reg r := rfl
@[simp] theorem State.writeBuf_reg (s : State) (b : List Byte) (r : RegNum) :
    (s.writeBuf b).reg r = s.reg r := rfl
@[simp] theorem State.setResult_reg (s : State) (v : BitVec 7) (r : RegNum) :
    (s.setResult v).reg r = s.reg r := rfl
@[simp] theorem State.raiseFault_reg (s : State) (c : Cause) (w : Word32) (r : RegNum) :
    (s.raiseFault c w).reg r = s.reg r := rfl
@[simp] theorem State.answer_reg (s : State) (a : Response) (r : RegNum) :
    (s.answer a).reg r = s.reg r := rfl

/-- One written byte changes, no other (R58). -/
theorem State.setByte_buf_getElem (s : State) (k k' : Fin 384) (v : Byte) :
    (s.setByte k v).buf[k'] = if k' = k then v else s.buf[k'] := by
  by_cases h : k' = k
  · subst h; simp
  · have : k.val ≠ k'.val := fun e => h (Fin.ext e.symm)
    simp [h, this]

theorem overlay_getElem? (new old : List Byte) (k : Nat) (h : k < old.length) :
    (overlay new old)[k]? = if k < new.length then new[k]? else old[k]? := by
  induction new generalizing old k with
  | nil => cases old <;> simp [overlay]
  | cons b new ih =>
    cases old with
    | nil => simp at h
    | cons o old =>
      cases k with
      | zero => simp [overlay]
      | succ k => simpa [overlay] using ih old k (by simpa using h)

/-- The bytes of BUF after `writeBuf`: the new ones in front, the old ones behind them (R140). -/
theorem State.writeBuf_buf_getElem (s : State) (b : List Byte) (k : Nat) (h : k < 384) :
    (s.writeBuf b).buf[k] = if hk : k < b.length then b[k] else s.buf[k] := by
  have e := overlay_getElem? b s.buf.toList k (by simpa using h)
  have l : (s.writeBuf b).buf[k] = (overlay b s.buf.toList)[k]'(by simp [overlay_length, h]) := rfl
  rw [l]
  apply Option.some.inj
  rw [← List.getElem?_eq_getElem, e]
  split
  · next hk => simp [hk]
  · next hk => simp [h]

@[simp] theorem State.readBuf_length (s : State) (m : Nat) : (s.readBuf m).length = min m 384 := by
  simp [State.readBuf]

theorem State.readBuf_getElem (s : State) (m k : Nat) (hm : k < m) (hk : k < 384) :
    (s.readBuf m)[k]'(by simp [hm, hk]) = s.buf[k] := by
  simp [State.readBuf]

/-- A register read as integers has 256 of them. -/
@[simp] theorem ints_length (v : RingReg) : (ints v).length = 256 := by simp [ints]

@[simp] theorem State.source_length (s : State) (r : RegNum) : (s.source r).length = 256 := by
  simp [State.source]

theorem ints_getElem (v : RingReg) (k : Nat) (h : k < 256) :
    (ints v)[k]'(by simpa using h) = (v[k].toNat : Int) := by
  simp [ints]

theorem entry_ints (v : RingReg) (k : Nat) (h : k < 256) : entry (ints v) k = (v[k].toNat : Int) := by
  simp [entry, ints, h]

theorem State.entry_source (s : State) (r : RegNum) (k : Nat) (h : k < 256) :
    entry (s.source r) k = ((s.reg r)[k].toNat : Int) := entry_ints _ k h

theorem cellsOf_getElem? (n : Nat) (vs : List Int) (k : Nat) (h : k < n) :
    (cellsOf n vs)[k]? = some (BitVec.ofInt 12 (entry vs k)) := by
  induction n generalizing vs k with
  | zero => omega
  | succ n ih =>
    cases vs with
    | nil =>
      cases k with
      | zero => simp [cellsOf, entry]
      | succ k => simpa [cellsOf, entry] using ih [] k (by omega)
    | cons v vs =>
      cases k with
      | zero => simp [cellsOf, entry]
      | succ k => simpa [cellsOf, entry] using ih vs k (by omega)

/-- Cell k of a register written from integers is integer k. -/
theorem ofInts_getElem (vs : List Int) (k : Nat) (h : k < 256) :
    (ofInts vs)[k] = BitVec.ofInt 12 (entry vs k) := by
  have e := cellsOf_getElem? 256 vs k h
  have l : (ofInts vs)[k] = (cellsOf 256 vs)[k]'(by simpa [cellsOf_length] using h) := rfl
  rw [l]
  apply Option.some.inj
  rw [← List.getElem?_eq_getElem, e]

/-- An integer below 2^12 is the cell it is stored as. -/
theorem ofInts_toNat (vs : List Int) (k : Nat) (h : k < 256) (h0 : 0 ≤ entry vs k)
    (h1 : entry vs k < 4096) : (((ofInts vs)[k].toNat : Nat) : Int) = entry vs k := by
  rw [ofInts_getElem _ _ h, BitVec.toNat_ofInt]
  have : entry vs k % ((2 ^ 12 : Nat) : Int) = entry vs k := Int.emod_eq_of_lt h0 (by simpa using h1)
  rw [this]
  exact Int.toNat_of_nonneg h0

theorem entry_map (g : Int → Int) (vs : List Int) (k : Nat) (h : k < vs.length) :
    entry (vs.map g) k = g (entry vs k) := by
  simp [entry, h]

theorem entry_zipWith (g : Int → Int → Int) (as bs : List Int) (k : Nat) (ha : k < as.length)
    (hb : k < bs.length) : entry (List.zipWith g as bs) k = g (entry as k) (entry bs k) := by
  simp [entry, ha, hb]

/-- The condition of OPERAND_RANGE says: d below 12 and a cell of 2^d or more (R201). -/
theorem outOfRange_iff (v : RingReg) (d : Nat) :
    outOfRange (ints v) d = true ↔ d < 12 ∧ ∃ i : Fin 256, 2 ^ d ≤ v[i].toNat := by
  simp only [outOfRange, Bool.and_eq_true, decide_eq_true_eq, List.any_eq_true, ints,
    List.mem_map, Vector.mem_toList_iff, exists_exists_and_eq_and]
  refine and_congr_right fun _ => ⟨?_, ?_⟩
  · rintro ⟨c, hc, h⟩
    obtain ⟨i, hi, rfl⟩ := Vector.mem_iff_getElem.mp hc
    exact ⟨⟨i, hi⟩, by exact_mod_cast h⟩
  · rintro ⟨i, h⟩
    exact ⟨v[i], by simp, by exact_mod_cast h⟩

end Machine

end Sys2Proof
end

