-- ==== Sys2Proof/Laws/Arith.lean ====
section
/-!
SUPPORT. The scalar functions: ranges and congruences of modq (R111, R112), lengths and entries of the
bit and byte sequences (R120 to R123).
-/

namespace Sys2Proof.Machine

theorem modq_nonneg (v : Int) : 0 ≤ modq v := Int.emod_nonneg v (by decide)

theorem modq_lt (v : Int) : modq v < 3329 := Int.emod_lt_of_pos v (by decide)

/-- modq forgets nothing but multiples of 3329. -/
theorem modq_eq_iff (a b : Int) : modq a = modq b ↔ a ≡ b [ZMOD 3329] := Iff.rfl

theorem modq_of_range (v : Int) (h0 : 0 ≤ v) (h1 : v < 3329) : modq v = v :=
  Int.emod_eq_of_lt h0 h1

@[simp] theorem modq_modq (v : Int) : modq (modq v) = modq v := by simp [modq]

theorem modq_add_modq (a b : Int) : modq (modq a + modq b) = modq (a + b) := by
  simp [modq]

theorem modq_sub_modq (a b : Int) : modq (modq a - modq b) = modq (a - b) := by
  simp [modq, Int.sub_emod]

theorem modq_mul_modq (a b : Int) : modq (modq a * modq b) = modq (a * b) := by
  simp [modq, Int.mul_emod]

/-- A reduced value survives being stored in a cell. -/
theorem ofInt_modq_toNat (v : Int) : (((BitVec.ofInt 12 (modq v)).toNat : Nat) : Int) = modq v := by
  have h0 := modq_nonneg v
  have h1 := modq_lt v
  rw [BitVec.toNat_ofInt]
  have : modq v % ((2 ^ 12 : Nat) : Int) = modq v := Int.emod_eq_of_lt h0 (by push_cast; omega)
  rw [this, Int.toNat_of_nonneg h0]

@[simp] theorem valueBits_length (w v : Nat) : (valueBits w v).length = w := by simp [valueBits]

@[simp] theorem bitFields_length (n w : Nat) (b : List Bool) : (bitFields n w b).length = n := by
  induction n generalizing b with
  | zero => rfl
  | succ n ih => simp [bitFields, ih]

/-- Field k is read from the w bits that start at bit w*k (R120, R123). -/
theorem bitFields_getElem? (n w : Nat) (b : List Bool) (k : Nat) (h : k < n) :
    (bitFields n w b)[k]? = some (bitsValue ((b.drop (w * k)).take w)) := by
  induction n generalizing b k with
  | zero => omega
  | succ n ih =>
    cases k with
    | zero => simp [bitFields]
    | succ k =>
      simp only [bitFields, List.getElem?_cons_succ]
      rw [ih _ _ (by omega), List.drop_drop, Nat.mul_succ, Nat.add_comm]

theorem bitsValue_lt (b : List Bool) : bitsValue b < 2 ^ b.length := by
  induction b with
  | nil => simp [bitsValue]
  | cons x b ih => cases x <;> simp [bitsValue, Nat.pow_succ] <;> omega

@[simp] theorem bytesToBits_length (bytes : List Byte) :
    (bytesToBits bytes).length = 8 * bytes.length := by
  induction bytes with
  | nil => rfl
  | cons b bs ih =>
    simp only [bytesToBits, List.flatMap_cons, List.length_append, valueBits_length,
      List.length_cons] at ih ⊢
    rw [ih]; ring

theorem flatMap_valueBits_length (d : Nat) (f : List Int) :
    (f.flatMap fun v => valueBits d v.toNat).length = f.length * d := by
  simp

/-- ByteEncode makes 32*d bytes of 256 values (R122). -/
theorem byteEncode_length (f : List Int) (d : Nat) (h : f.length = 256) :
    (byteEncode f d).length = 32 * d := by
  simp only [byteEncode, bitsToBytes, List.length_map, bitFields_length,
    flatMap_valueBits_length, h]
  omega

/-- ByteDecode makes 256 values (R123). -/
@[simp] theorem byteDecode_length (bytes : List Byte) (d : Nat) :
    (byteDecode bytes d).length = 256 := by
  simp [byteDecode]

end Sys2Proof.Machine
end

