-- ==== Sys2Proof/Laws/Exec.lean ====
section
/-!
SUPPORT. What each shared operation of a command can do, said once: the check of the operand d, and the
state each meaning ends in. Proofs about a command cite these lines.
-/

namespace Sys2Proof.Machine

theorem legalD_iff (d : BitVec 4) : legalD d = true ↔ 1 ≤ d.toNat ∧ d.toNat ≤ 12 := by
  simp [legalD, Config.dMin, Config.dMax]

theorem withLegalD_legal (i : Instr) {d : BitVec 4} (s : State) (body : Nat → State)
    (h : legalD d = true) : withLegalD i d s body = body d.toNat := by
  simp [withLegalD, h]

theorem withLegalD_illegal (i : Instr) {d : BitVec 4} (s : State) (body : Nat → State)
    (h : legalD d = false) : withLegalD i d s body = s.raiseFault .illegalD (encode i) := by
  simp [withLegalD, h]

/-- What the check of d can do, said once: it goes on, or it takes ILLEGAL_D. -/
theorem withLegalD_cases (i : Instr) (d : BitVec 4) (s : State) (body : Nat → State) :
    (legalD d = true ∧ withLegalD i d s body = body d.toNat) ∨
      (legalD d = false ∧ withLegalD i d s body = s.raiseFault .illegalD (encode i)) := by
  cases h : legalD d with
  | true => exact .inl ⟨rfl, withLegalD_legal i s body h⟩
  | false => exact .inr ⟨rfl, withLegalD_illegal i s body h⟩

variable (s : State)

theorem exec_ntt (rd ra : RegNum) :
    exec (.ntt rd ra) s = .next (s.setDest rd (nttNetwork (s.source ra))) := rfl

theorem exec_intt (rd ra : RegNum) :
    exec (.intt rd ra) s = .next (s.setDest rd (inttNetwork (s.source ra))) := rfl

theorem exec_mulntt (rd ra rb : RegNum) :
    exec (.mulntt rd ra rb) s = .next (s.setDest rd (mulBlocks (s.source ra) (s.source rb))) := rfl

theorem exec_add (rd ra rb : RegNum) :
    exec (.add rd ra rb) s =
      .next (s.setDest rd (List.zipWith (fun a b => modq (a + b)) (s.source ra) (s.source rb))) :=
  rfl

theorem exec_sub (rd ra rb : RegNum) :
    exec (.sub rd ra rb) s =
      .next (s.setDest rd (List.zipWith (fun a b => modq (a - b)) (s.source ra) (s.source rb))) :=
  rfl

/-- Everything ENCODE can do (R140). -/
theorem execEncode_cases (ra : RegNum) (d : BitVec 4) :
    (legalD d = false ∧ exec (.encode ra d) s = .next (s.raiseFault .illegalD (encode (.encode ra d)))) ∨
    (legalD d = true ∧ outOfRange (s.source ra) d.toNat = true ∧
      exec (.encode ra d) s = .next (s.raiseFault .operandRange (encode (.encode ra d)))) ∨
    (legalD d = true ∧ outOfRange (s.source ra) d.toNat = false ∧
      exec (.encode ra d) s = .next (s.writeBuf (byteEncode (s.source ra) d.toNat))) := by
  cases h : legalD d <;> cases o : outOfRange (s.source ra) d.toNat <;>
    simp [exec, execEncode, withLegalD, h, o]

/-- Everything DECODE can do (R141). -/
theorem execDecode_cases (rd : RegNum) (d : BitVec 4) :
    (legalD d = false ∧ exec (.decode rd d) s = .next (s.raiseFault .illegalD (encode (.decode rd d)))) ∨
    (legalD d = true ∧
      exec (.decode rd d) s =
        .next (s.setDest rd (byteDecode (s.readBuf (32 * d.toNat)) d.toNat))) := by
  cases h : legalD d <;> simp [exec, execDecode, withLegalD, h]

/-- Everything COMPRESS can do (R151). -/
theorem execCompress_cases (rd ra : RegNum) (d : BitVec 4) :
    (legalD d = false ∧
      exec (.compress rd ra d) s = .next (s.raiseFault .illegalD (encode (.compress rd ra d)))) ∨
    (legalD d = true ∧
      exec (.compress rd ra d) s =
        .next (s.setDest rd ((s.source ra).map fun x => compress1 x d.toNat))) := by
  cases h : legalD d <;> simp [exec, execCompress, withLegalD, h]

/-- Everything DECOMPRESS can do (R152). -/
theorem execDecompress_cases (rd ra : RegNum) (d : BitVec 4) :
    (legalD d = false ∧
      exec (.decompress rd ra d) s = .next (s.raiseFault .illegalD (encode (.decompress rd ra d)))) ∨
    (legalD d = true ∧ outOfRange (s.source ra) d.toNat = true ∧
      exec (.decompress rd ra d) s =
        .next (s.raiseFault .operandRange (encode (.decompress rd ra d)))) ∨
    (legalD d = true ∧ outOfRange (s.source ra) d.toNat = false ∧
      exec (.decompress rd ra d) s =
        .next (s.setDest rd ((s.source ra).map fun y => decompress1 y d.toNat))) := by
  cases h : legalD d <;> cases o : outOfRange (s.source ra) d.toNat <;>
    simp [exec, execDecompress, withLegalD, h, o]

/-- Everything BREV7 can do (R190). -/
theorem execBrev7_cases (idx : BitVec 8) :
    (127 < idx.toNat ∧ exec (.brev7 idx) s = .next (s.raiseFault .invalidArg (encode (.brev7 idx)))) ∨
    (idx.toNat ≤ 127 ∧
      exec (.brev7 idx) s = .next (s.setResult (BitVec.ofNat 7 (bitrev7 idx.toNat)))) := by
  by_cases h : idx.toNat ≤ 127
  · exact .inr ⟨h, by simp [exec, execBrev7, bitrev7?, h]⟩
  · exact .inl ⟨by omega, by simp [exec, execBrev7, bitrev7?, h]⟩

end Sys2Proof.Machine
end

