-- ==== Sys2Proof/Laws/PerInstr.lean ====
section
/-!
SUPPORT. A statement made of every command, one lemma per constructor: the word the encoder makes is a
well-formed instance of the command's own row of the opcode map, (w AND mask) = match (R84).
-/

namespace Sys2Proof.Laws.EncodesItsRow

/-- The `match` of each row of the opcode map (R84). -/
def rowMatch : Instr → Word32
  | .encode _ _ => 0x00000001#32
  | .decode _ _ => 0x00000002#32
  | .compress _ _ _ => 0x00000003#32
  | .decompress _ _ _ => 0x00000004#32
  | .ntt _ _ => 0x00000005#32
  | .intt _ _ => 0x00000006#32
  | .mulntt _ _ _ => 0x00000007#32
  | .add _ _ _ => 0x00000008#32
  | .sub _ _ _ => 0x00000009#32
  | .brev7 _ => 0x0000000A#32

/-- The `mask` of each row of the opcode map (R84). -/
def rowMask : Instr → Word32
  | .encode _ _ => 0xFF0F8FFF#32
  | .decode _ _ => 0xFF0FF8FF#32
  | .compress _ _ _ => 0xFF0F88FF#32
  | .decompress _ _ _ => 0xFF0F88FF#32
  | .ntt _ _ => 0xFFFF88FF#32
  | .intt _ _ => 0xFFFF88FF#32
  | .mulntt _ _ _ => 0xFFF888FF#32
  | .add _ _ _ => 0xFFF888FF#32
  | .sub _ _ _ => 0xFFF888FF#32
  | .brev7 _ => 0xFFF00FFF#32

/-- The encoded word of `i` matches the row of `i`. -/
def Statement (i : Instr) : Prop := Sys2Proof.encode i &&& rowMask i = rowMatch i

/-- Masking a word masks it field by field. -/
theorem wordOf_and (d rb ra rd : BitVec 4) (op : BitVec 8) (d' rb' ra' rd' : BitVec 4)
    (op' : BitVec 8) :
    wordOf d rb ra rd op &&& (0xFF#8 ++ d' ++ rb' ++ ra' ++ rd' ++ op') =
      wordOf (d &&& d') (rb &&& rb') (ra &&& ra') (rd &&& rd') (op &&& op') := by
  show (0x00#8 ++ d ++ rb ++ ra ++ rd ++ op) &&& (0xFF#8 ++ d' ++ rb' ++ ra' ++ rd' ++ op') = _
  simp only [BitVec.and_append]
  rfl

/-- The top bit of a register field is zero (R81). -/
theorem regField_and (r : RegNum) : regField r &&& 8#4 = 0#4 := by
  revert r; decide

theorem encode (ra : RegNum) (d : BitVec 4) : Statement (.encode ra d) := by
  refine (wordOf_and _ _ _ _ _ (0#4) (0xF#4) (0x8#4) (0xF#4) 0xFF).trans ?_
  simp [regField_and, wordOf, rowMatch]

theorem decode (rd : RegNum) (d : BitVec 4) : Statement (.decode rd d) := by
  refine (wordOf_and _ _ _ _ _ (0#4) (0xF#4) (0xF#4) (0x8#4) 0xFF).trans ?_
  simp [regField_and, wordOf, rowMatch]

theorem compress (rd ra : RegNum) (d : BitVec 4) : Statement (.compress rd ra d) := by
  refine (wordOf_and _ _ _ _ _ (0#4) (0xF#4) (0x8#4) (0x8#4) 0xFF).trans ?_
  simp [regField_and, wordOf, rowMatch]

theorem decompress (rd ra : RegNum) (d : BitVec 4) : Statement (.decompress rd ra d) := by
  refine (wordOf_and _ _ _ _ _ (0#4) (0xF#4) (0x8#4) (0x8#4) 0xFF).trans ?_
  simp [regField_and, wordOf, rowMatch]

theorem ntt (rd ra : RegNum) : Statement (.ntt rd ra) := by
  refine (wordOf_and _ _ _ _ _ (0xF#4) (0xF#4) (0x8#4) (0x8#4) 0xFF).trans ?_
  simp [regField_and, wordOf, rowMatch]

theorem intt (rd ra : RegNum) : Statement (.intt rd ra) := by
  refine (wordOf_and _ _ _ _ _ (0xF#4) (0xF#4) (0x8#4) (0x8#4) 0xFF).trans ?_
  simp [regField_and, wordOf, rowMatch]

theorem mulntt (rd ra rb : RegNum) : Statement (.mulntt rd ra rb) := by
  refine (wordOf_and _ _ _ _ _ (0xF#4) (0x8#4) (0x8#4) (0x8#4) 0xFF).trans ?_
  simp [regField_and, wordOf, rowMatch]

theorem add (rd ra rb : RegNum) : Statement (.add rd ra rb) := by
  refine (wordOf_and _ _ _ _ _ (0xF#4) (0x8#4) (0x8#4) (0x8#4) 0xFF).trans ?_
  simp [regField_and, wordOf, rowMatch]

theorem sub (rd ra rb : RegNum) : Statement (.sub rd ra rb) := by
  refine (wordOf_and _ _ _ _ _ (0xF#4) (0x8#4) (0x8#4) (0x8#4) 0xFF).trans ?_
  simp [regField_and, wordOf, rowMatch]

theorem brev7 (idx : BitVec 8) : Statement (.brev7 idx) := by
  refine (wordOf_and _ _ _ _ _ (0xF#4) (0#4) (0#4) (0xF#4) 0xFF).trans ?_
  simp [wordOf, rowMatch]

end Sys2Proof.Laws.EncodesItsRow
end

