-- ==== Sys2Proof/Laws/Step.lean ====
section
/-!
SUPPORT. What one step can do, said once: which host event it serves, what the port does with it, and
which states a command can end in. Invariants and whole-machine rules are derived from these lemmas.
-/

namespace Sys2Proof.Machine

theorem fetch_nil {s : State} (h : s.pending = []) : fetch s = .idle := by simp [fetch, h]

theorem fetch_cons {s : State} {e : HostEvent} {rest : List HostEvent} (h : s.pending = e :: rest) :
    fetch s = serve e { s with pending := rest } := by simp [fetch, h]

theorem step_idle {s : State} (h : s.pending = []) : step s = .next s := by simp [step, fetch_nil h]

theorem step_served {s t : State} {e : HostEvent} {rest : List HostEvent}
    (h : s.pending = e :: rest) (hs : serve e { s with pending := rest } = .served t) :
    step s = .next t := by simp [step, fetch_cons h, hs]

theorem step_command {s t : State} {e : HostEvent} {rest : List HostEvent} {w : Word32}
    (h : s.pending = e :: rest) (hs : serve e { s with pending := rest } = .command w t) :
    step s = issue w t := by simp [step, fetch_cons h, hs]

/-- Everything the port can do with a write by space and offset. -/
theorem portWrite_cases (s : State) (sp : Space) (addr : Nat) (v : Payload) :
    (∃ w, sp = .csr ∧ addr = 0x04 ∧ v = .four w ∧ portWrite s sp addr v = cmdWrite s w) ∨
    (∃ w, sp = .csr ∧ addr = 0x14 ∧ v = .four w ∧ portWrite s sp addr v = ctrlWrite s w) ∨
    (∃ w r i, sp = .coef ∧ v = .two w ∧ coefTarget addr = some (r, i) ∧
      portWrite s sp addr v = .served ((s.setCell r i (w.setWidth 12)).answer .ok)) ∨
    (∃ w k, sp = .buf ∧ v = .one w ∧ bufTarget addr = some k ∧
      portWrite s sp addr v = .served ((s.setByte k w).answer .ok)) ∨
    portWrite s sp addr v = .served (s.answer .accessError) := by
  cases sp <;> cases v
  case coef.two w =>
    cases h : coefTarget addr with
    | none => exact .inr (.inr (.inr (.inr (by simp [portWrite, coefWrite, h, refuseAccess]))))
    | some ri =>
      exact .inr (.inr (.inl ⟨w, ri.1, ri.2, rfl, rfl, rfl, by simp [portWrite, coefWrite, h]⟩))
  case buf.one w =>
    cases h : bufTarget addr with
    | none => exact .inr (.inr (.inr (.inr (by simp [portWrite, bufWrite, h, refuseAccess]))))
    | some k =>
      exact .inr (.inr (.inr (.inl ⟨w, k, rfl, rfl, rfl, by simp [portWrite, bufWrite, h]⟩)))
  case csr.four w =>
    by_cases h4 : addr = 0x04
    · exact .inl ⟨w, rfl, h4, rfl, by simp [portWrite, csrWrite, h4]⟩
    · by_cases h14 : addr = 0x14
      · exact .inr (.inl ⟨w, rfl, h14, rfl, by simp [portWrite, csrWrite, h14]⟩)
      · exact .inr (.inr (.inr (.inr (by simp [portWrite, csrWrite, h4, h14, refuseAccess]))))
  all_goals exact .inr (.inr (.inr (.inr rfl)))

theorem coefTarget_some {addr : Nat} {r : RegNum} {i : Fin 256} (h : coefTarget addr = some (r, i)) :
    addr % 2 = 0 ∧ addr ≤ 4094 ∧ r = Fin.ofNat 8 (addr / 512) ∧
      i = Fin.ofNat 256 (addr % 512 / 2) := by
  unfold coefTarget at h
  split at h
  · next c =>
    obtain ⟨rfl, rfl⟩ := by simpa using h
    exact ⟨c.1, by omega, rfl, rfl⟩
  · cases h

theorem bufTarget_some {addr : Nat} {k : Fin 384} (h : bufTarget addr = some k) :
    addr ≤ 383 ∧ k.val = addr := by
  unfold bufTarget at h
  split at h
  · next c =>
    obtain rfl := by simpa using h
    exact ⟨by omega, by simp [Nat.mod_eq_of_lt c]⟩
  · cases h

/-- A bus write that reaches a space is the write to that space (R64), and the host event's
classification agrees. -/
theorem busTarget_some {off : BitVec 13} {sp : Space} {addr : Nat} (h : busTarget off = some (sp, addr)) :
    (sp = .coef ∧ off.toNat = addr ∧ addr < 0x1000) ∨
    (sp = .buf ∧ off.toNat = 0x1000 + addr ∧ addr < 0x180) ∨
    (sp = .csr ∧ off.toNat = 0x1200 + addr ∧ addr < 0x18) := by
  unfold busTarget at h
  simp only at h
  split at h
  · obtain ⟨rfl, rfl⟩ := by simpa using h
    exact .inl ⟨rfl, rfl, by assumption⟩
  · split at h
    · obtain ⟨rfl, rfl⟩ := by simpa using h
      exact .inr (.inl ⟨rfl, by omega, by omega⟩)
    · split at h
      · cases h
      · split at h
        · obtain ⟨rfl, rfl⟩ := by simpa using h
          exact .inr (.inr ⟨rfl, by omega, by omega⟩)
        · cases h

theorem isReset_of_control {e : HostEvent} {v : Word32} (h : e.control? = some v) :
    e.isReset = v.getLsbD 0 := by
  unfold HostEvent.isReset
  rw [h]

/-- What the port does with one host event, said once, with the classification of the event in
Safety.lean: a write to CMD, a write to CTRL, a coefficient write, a byte write, an event that is only
answered, and `rst`. -/
theorem serve_cases (e : HostEvent) (s : State) :
    (∃ w, e.command? = some w ∧ e.isTransaction = true ∧ serve e s = cmdWrite s w) ∨
    (∃ v, e.isReset = v.getLsbD 0 ∧ e.isTransaction = true ∧ serve e s = ctrlWrite s v) ∨
    (∃ w r i, e.writesCellOf = some r ∧ e.isTransaction = true ∧
      serve e s = .served ((s.setCell r i w).answer .ok)) ∨
    (∃ w k, e.writesByte = some k.val ∧ e.isTransaction = true ∧
      serve e s = .served ((s.setByte k w).answer .ok)) ∨
    (∃ a, e.isTransaction = true ∧ serve e s = .served (s.answer a)) ∨
    (e = .rst ∧ serve e s = .served s.afterReset) := by
  cases e with
  | read sp addr n => exact .inr (.inr (.inr (.inr (.inl ⟨_, rfl, rfl⟩))))
  | rst => exact .inr (.inr (.inr (.inr (.inr ⟨rfl, rfl⟩))))
  | busRead off n =>
    refine .inr (.inr (.inr (.inr (.inl ?_))))
    cases h : busTarget off with
    | none => exact ⟨.accessError, rfl, by simp [serve, h, refuseAccess]⟩
    | some x => exact ⟨portRead s x.1 x.2 n, rfl, by simp [serve, h]⟩
  | write sp addr v =>
    obtain ⟨w, rfl, rfl, rfl, h⟩ | ⟨w, rfl, rfl, rfl, h⟩ | ⟨w, r, i, rfl, rfl, ht, h⟩ |
      ⟨w, k, rfl, rfl, ht, h⟩ | h := portWrite_cases s sp addr v
    · exact .inl ⟨w, rfl, rfl, h⟩
    · exact .inr (.inl ⟨w, isReset_of_control rfl, rfl, h⟩)
    · obtain ⟨h1, h2, h3, -⟩ := coefTarget_some ht
      exact .inr (.inr (.inl ⟨_, r, i, by simp [HostEvent.writesCellOf, h1, h2, h3], rfl, h⟩))
    · obtain ⟨h1, h2⟩ := bufTarget_some ht
      exact .inr (.inr (.inr (.inl ⟨_, k, by simp [HostEvent.writesByte, h1, h2], rfl, h⟩)))
    · exact .inr (.inr (.inr (.inr (.inl ⟨_, rfl, h⟩))))
  | busWrite off v =>
    cases hb : busTarget off with
    | none =>
      exact .inr (.inr (.inr (.inr (.inl ⟨.accessError, rfl, by simp [serve, hb, refuseAccess]⟩))))
    | some x =>
      obtain ⟨sp, addr⟩ := x
      have hs : serve (.busWrite off v) s = portWrite s sp addr v := by simp [serve, hb]
      rw [hs]
      have hc := busTarget_some hb
      obtain ⟨w, rfl, rfl, rfl, h⟩ | ⟨w, rfl, rfl, rfl, h⟩ | ⟨w, r, i, rfl, rfl, ht, h⟩ |
        ⟨w, k, rfl, rfl, ht, h⟩ | h := portWrite_cases s sp addr v
      · have ho : off = 0x1204#13 := BitVec.eq_of_toNat_eq (by simp at hc ⊢; omega)
        exact .inl ⟨w, by simp [HostEvent.command?, ho], rfl, h⟩
      · have ho : off = 0x1214#13 := BitVec.eq_of_toNat_eq (by simp at hc ⊢; omega)
        exact .inr (.inl ⟨w, isReset_of_control (by rw [ho]; rfl), rfl, h⟩)
      · obtain ⟨h1, h2, h3, -⟩ := coefTarget_some ht
        have ho : off.toNat = addr := by simp at hc; omega
        exact .inr (.inr (.inl ⟨_, r, i, by simp [HostEvent.writesCellOf, ho, h1, h2, h3], rfl, h⟩))
      · obtain ⟨h1, h2⟩ := bufTarget_some ht
        have ho : off.toNat = 0x1000 + addr := by simp at hc; omega
        refine .inr (.inr (.inr (.inl ⟨_, k, ?_, rfl, h⟩)))
        simp [HostEvent.writesByte, ho, h2]
        omega
      · exact .inr (.inr (.inr (.inr (.inl ⟨_, rfl, h⟩))))

/-- Everything a command can end in (R203, and the written state of each command's rule). -/
theorem exec_cases (i : Instr) (s : State) :
    (∃ c, exec i s = .next (s.raiseFault c (encode i))) ∨
    (∃ rd vs, exec i s = .next (s.setDest rd vs)) ∨
    (∃ b, exec i s = .next (s.writeBuf b)) ∨
    (∃ v, exec i s = .next (s.setResult v)) := by
  cases i with
  | encode ra d =>
    obtain ⟨_, h⟩ | ⟨_, _, h⟩ | ⟨_, _, h⟩ := execEncode_cases s ra d
    · exact .inl ⟨_, h⟩
    · exact .inl ⟨_, h⟩
    · exact .inr (.inr (.inl ⟨_, h⟩))
  | decode rd d =>
    obtain ⟨_, h⟩ | ⟨_, h⟩ := execDecode_cases s rd d
    · exact .inl ⟨_, h⟩
    · exact .inr (.inl ⟨_, _, h⟩)
  | compress rd ra d =>
    obtain ⟨_, h⟩ | ⟨_, h⟩ := execCompress_cases s rd ra d
    · exact .inl ⟨_, h⟩
    · exact .inr (.inl ⟨_, _, h⟩)
  | decompress rd ra d =>
    obtain ⟨_, h⟩ | ⟨_, _, h⟩ | ⟨_, _, h⟩ := execDecompress_cases s rd ra d
    · exact .inl ⟨_, h⟩
    · exact .inl ⟨_, h⟩
    · exact .inr (.inl ⟨_, _, h⟩)
  | ntt rd ra => exact .inr (.inl ⟨_, _, exec_ntt s rd ra⟩)
  | intt rd ra => exact .inr (.inl ⟨_, _, exec_intt s rd ra⟩)
  | mulntt rd ra rb => exact .inr (.inl ⟨_, _, exec_mulntt s rd ra rb⟩)
  | add rd ra rb => exact .inr (.inl ⟨_, _, exec_add s rd ra rb⟩)
  | sub rd ra rb => exact .inr (.inl ⟨_, _, exec_sub s rd ra rb⟩)
  | brev7 idx =>
    obtain ⟨_, h⟩ | ⟨_, h⟩ := execBrev7_cases s idx
    · exact .inl ⟨_, h⟩
    · exact .inr (.inr (.inr ⟨_, h⟩))

theorem issue_error {w : Word32} {e : Reject} (s : State) (h : decode w = .error e) :
    issue w s = .next ((s.raiseFault .illegalCmd w).answer .ok) := by
  simp [issue, h, finishCommand]

theorem issue_ok {w : Word32} {i : Instr} {s t : State} (h : decode w = .ok i)
    (ht : exec i s = .next t) : issue w s = .next (t.answer .ok) := by
  simp [issue, h, ht, finishCommand]

/-- What a command word can do outside the fault state, said once: ILLEGAL_CMD, or its execution. -/
theorem issue_cases (w : Word32) (s : State) :
    (∃ e, decode w = .error e ∧ issue w s = .next ((s.raiseFault .illegalCmd w).answer .ok)) ∨
    (∃ i t, decode w = .ok i ∧ exec i s = .next t ∧ issue w s = .next (t.answer .ok)) := by
  cases h : decode w with
  | error e => exact .inl ⟨e, rfl, issue_error s h⟩
  | ok i =>
    obtain ⟨_, ht⟩ | ⟨_, _, ht⟩ | ⟨_, ht⟩ | ⟨_, ht⟩ := exec_cases i s <;>
      exact .inr ⟨i, _, rfl, ht, issue_ok h ht⟩

end Sys2Proof.Machine
end

