-- ==== Sys2Proof/Laws/Transform.lean ====
section
/-!
SUPPORT. The transforms lane by lane (R127, R242): a group acts on the two halves of its block at once,
and a round on its blocks one after another. This form is proved equal to the sequential pseudocode of
Machine/Transform.lean and is quick to evaluate.
-/

namespace Sys2Proof.Machine

theorem entry_append_cons (a : List Int) (u : Int) (rest : List Int) :
    entry (a ++ u :: rest) a.length = u := by
  simp [entry]

theorem set_append_cons (a : List Int) (u v : Int) (rest : List Int) :
    (a ++ u :: rest).set a.length v = a ++ v :: rest := by
  simp

/-- A step of a sequential loop that replaces the pair (f[j], f[j+len]) by functions of the old pair. -/
def pairStep (p : List Int → Nat → List Int) (g h : Int → Int → Int) (len : Nat) : Prop :=
  ∀ (a mid post : List Int) (u v : Int), (u :: mid).length = len →
    p (a ++ (u :: mid) ++ (v :: post)) a.length = a ++ (g u v :: mid) ++ (h u v :: post)

theorem butterfly_pairStep (z : Int) (len : Nat) :
    pairStep (butterfly z len) (fun u v => modq (u + modq (z * v)))
      (fun u v => modq (u - modq (z * v))) len := by
  intro a mid post u v hl
  have hj : entry (a ++ (u :: mid) ++ v :: post) a.length = u := by
    rw [List.append_assoc, List.cons_append]; exact entry_append_cons a u _
  have hk : entry (a ++ (u :: mid) ++ v :: post) (a.length + len) = v := by
    have := entry_append_cons (a ++ (u :: mid)) v post
    rwa [List.length_append, hl] at this
  have hs : ∀ x, (a ++ (u :: mid) ++ v :: post).set (a.length + len) x
      = a ++ (u :: mid) ++ x :: post := by
    intro x
    have := set_append_cons (a ++ (u :: mid)) v x post
    rwa [List.length_append, hl] at this
  simp only [butterfly, hj, hk, hs]
  rw [List.append_assoc, List.cons_append, set_append_cons, List.append_assoc, List.cons_append]

theorem invButterfly_pairStep (z : Int) (len : Nat) :
    pairStep (invButterfly z len) (fun u v => modq (u + v)) (fun u v => modq (z * (v - u))) len := by
  intro a mid post u v hl
  have hj : entry (a ++ (u :: mid) ++ v :: post) a.length = u := by
    rw [List.append_assoc, List.cons_append]; exact entry_append_cons a u _
  have hk : entry (a ++ (u :: mid) ++ v :: post) (a.length + len) = v := by
    have := entry_append_cons (a ++ (u :: mid)) v post
    rwa [List.length_append, hl] at this
  have hs : ∀ x, (a ++ (u :: mid) ++ v :: post).set a.length x = a ++ (x :: mid) ++ v :: post := by
    intro x
    rw [List.append_assoc, List.cons_append, set_append_cons, List.append_assoc, List.cons_append]
  simp only [invButterfly, hj, hk, hs]
  have hl' : (a ++ (modq (u + v) :: mid)).length = a.length + len := by
    rw [List.length_append, ← hl]; rfl
  have := set_append_cons (a ++ (modq (u + v) :: mid)) v (modq (z * (v - u))) post
  rwa [hl'] at this

/-- A group of butterflies j = start .. start + len - 1 acts on the two halves of its block. -/
theorem foldl_pairStep {p : List Int → Nat → List Int} {g h : Int → Int → Int} {len : Nat}
    (hp : pairStep p g h len) (lo hi a mid post : List Int) (hlen : lo.length = hi.length)
    (hmid : lo.length + mid.length = len) :
    (List.range' a.length lo.length).foldl p (a ++ lo ++ mid ++ hi ++ post)
      = a ++ List.zipWith g lo hi ++ mid ++ List.zipWith h lo hi ++ post := by
  induction lo generalizing hi a mid with
  | nil => cases hi with
    | nil => simp
    | cons => simp at hlen
  | cons u lo ih => cases hi with
    | nil => simp at hlen
    | cons v hi =>
      have e := hp a (lo ++ mid) (hi ++ post) u v (by simp at hmid ⊢; omega)
      have e1 : a ++ (u :: lo) ++ mid ++ (v :: hi) ++ post
          = a ++ (u :: (lo ++ mid)) ++ (v :: (hi ++ post)) := by simp
      have e2 : a ++ (g u v :: (lo ++ mid)) ++ (h u v :: (hi ++ post))
          = (a ++ [g u v]) ++ lo ++ (mid ++ [h u v]) ++ hi ++ post := by simp
      have e3 := ih hi (a ++ [g u v]) (mid ++ [h u v]) (by simpa using hlen)
        (by simp at hmid ⊢; omega)
      simp only [List.length_cons, List.range'_succ, List.foldl_cons, e1, e, e2]
      rw [List.length_append] at e3
      simp only [List.length_singleton] at e3
      rw [e3]
      simp

/-- A whole round, lane by lane: `groups` groups of block size `len`, the twiddle counter taking the
values `next i` after each; `g z` and `h z` give the two new values of a pair. -/
def lanesRound (g h : Int → Int → Int → Int) (next : Nat → Nat) (len : Nat) :
    Nat → Nat → List Int → List Int
  | 0, _, f => f
  | groups + 1, i, f =>
    List.zipWith (g (zeta i)) (f.take len) ((f.drop len).take len)
      ++ List.zipWith (h (zeta i)) (f.take len) ((f.drop len).take len)
      ++ lanesRound g h next len groups (next i) (f.drop (2 * len))

/-- The counter after a number of groups. -/
def counterAfter (next : Nat → Nat) : Nat → Nat → Nat
  | 0, i => i
  | groups + 1, i => counterAfter next groups (next i)

/-- A sequential round of any group function that acts by `pairStep` equals the round by lanes. -/
theorem foldl_groups {p : Int → Nat → List Int → Nat → List Int} {g h : Int → Int → Int → Int}
    {next : Nat → Nat} {len : Nat} (hp : ∀ z, pairStep (p z len) (g z) (h z) len)
    (groups k i : Nat) (a f : List Int) (ha : a.length = k * (2 * len))
    (hf : f.length = groups * (2 * len)) :
    ((List.range' k groups).map fun m => m * (2 * len)).foldl
        (fun (fi : List Int × Nat) start =>
          ((List.range' start len).foldl (p (zeta fi.2) len) fi.1, next fi.2)) (a ++ f, i)
      = (a ++ lanesRound g h next len groups i f, counterAfter next groups i) := by
  induction groups generalizing k i a f with
  | zero => simp [lanesRound, counterAfter]
  | succ groups ih =>
    have h2 : 2 * len ≤ f.length := by rw [hf]; exact Nat.le_mul_of_pos_left _ (by omega)
    have hlo : (f.take len).length = len := by simp; omega
    have hhi : ((f.drop len).take len).length = len := by simp; omega
    have hsplit : a ++ f = a ++ f.take len ++ [] ++ (f.drop len).take len ++ f.drop (2 * len) := by
      have e1 : f.drop (2 * len) = (f.drop len).drop len := by
        rw [List.drop_drop, Nat.two_mul]
      rw [e1]
      simp [List.append_assoc]
    have e := foldl_pairStep (hp (zeta i)) (f.take len) ((f.drop len).take len) a []
      (f.drop (2 * len)) (by rw [hlo, hhi]) (by simp; omega)
    rw [hlo, ha, ← hsplit] at e
    simp only [List.range'_succ, List.map_cons, List.foldl_cons, e]
    have hz : ∀ q : Int → Int → Int,
        (List.zipWith q (f.take len) ((f.drop len).take len)).length = len := by
      intro q; rw [List.length_zipWith, hlo, hhi, Nat.min_self]
    have := ih (k + 1) (next i)
      (a ++ List.zipWith (g (zeta i)) (f.take len) ((f.drop len).take len)
        ++ List.zipWith (h (zeta i)) (f.take len) ((f.drop len).take len)) (f.drop (2 * len))
      (by rw [List.length_append, List.length_append, hz, hz, ha]; ring)
      (by rw [List.length_drop, hf, Nat.succ_mul]; omega)
    simp only [List.append_nil]
    rw [this]
    simp [lanesRound, counterAfter]

theorem lanesRound_length (g h : Int → Int → Int → Int) (next : Nat → Nat) (len groups i : Nat)
    (f : List Int) (hf : f.length = groups * (2 * len)) :
    (lanesRound g h next len groups i f).length = f.length := by
  induction groups generalizing i f with
  | zero => simp [lanesRound]
  | succ groups ih =>
    have h2 : 2 * len ≤ f.length := by rw [hf]; exact Nat.le_mul_of_pos_left _ (by omega)
    have := ih (next i) (f.drop (2 * len)) (by rw [List.length_drop, hf, Nat.succ_mul]; omega)
    simp only [lanesRound, List.length_append, List.length_zipWith, List.length_take,
      List.length_drop, this]
    omega

/-- The two new values of a forward butterfly (R160). -/
def fwdLo (z u v : Int) : Int := modq (u + modq (z * v))
/-- The two new values of a forward butterfly (R160). -/
def fwdHi (z u v : Int) : Int := modq (u - modq (z * v))
/-- The two new values of an inverse butterfly (R162). -/
def invLo (_ u v : Int) : Int := modq (u + v)
/-- The two new values of an inverse butterfly (R162). -/
def invHi (z u v : Int) : Int := modq (z * (v - u))

@[simp] theorem counterAfter_succ (groups i : Nat) : counterAfter (· + 1) groups i = i + groups := by
  induction groups generalizing i with
  | zero => rfl
  | succ groups ih => rw [counterAfter, ih]; omega

@[simp] theorem counterAfter_pred (groups i : Nat) : counterAfter (· - 1) groups i = i - groups := by
  induction groups generalizing i with
  | zero => rfl
  | succ groups ih => rw [counterAfter, ih]; omega

theorem nttRound_eq_lanes (len i : Nat) (f : List Int) (hf : f.length = 256)
    (hl : 128 / len * (2 * len) = 256) :
    nttRound (f, i) len = (lanesRound fwdLo fwdHi (· + 1) len (128 / len) i f, i + 128 / len) := by
  have := foldl_groups (p := butterfly) (g := fwdLo) (h := fwdHi) (next := (· + 1)) (len := len)
    (fun z => butterfly_pairStep z len) (128 / len) 0 i [] f (by simp) (hf.trans hl.symm)
  rw [counterAfter_succ] at this
  rw [nttRound, groupStarts, List.range_eq_range']
  exact this

theorem inttRound_eq_lanes (len i : Nat) (f : List Int) (hf : f.length = 256)
    (hl : 128 / len * (2 * len) = 256) :
    inttRound (f, i) len = (lanesRound invLo invHi (· - 1) len (128 / len) i f, i - 128 / len) := by
  have := foldl_groups (p := invButterfly) (g := invLo) (h := invHi) (next := (· - 1)) (len := len)
    (fun z => invButterfly_pairStep z len) (128 / len) 0 i [] f (by simp) (hf.trans hl.symm)
  rw [counterAfter_pred] at this
  rw [inttRound, groupStarts, List.range_eq_range']
  exact this

theorem lanesRound_256 (g h : Int → Int → Int → Int) (next : Nat → Nat) (len groups i : Nat)
    (f : List Int) (hf : f.length = 256) (hl : groups * (2 * len) = 256) :
    (lanesRound g h next len groups i f).length = 256 := by
  rw [lanesRound_length g h next len groups i f (hf.trans hl.symm), hf]

/-- The forward network by lanes: round len starts with the counter at 128 / len (R164). -/
def nttLanes (f : List Int) : List Int :=
  [128, 64, 32, 16, 8, 4, 2].foldl
    (fun f len => lanesRound fwdLo fwdHi (· + 1) len (128 / len) (128 / len) f) f

/-- The inverse network by lanes: round len starts with the counter at 256 / len - 1 (R164). -/
def inttLanes (f : List Int) : List Int :=
  ([2, 4, 8, 16, 32, 64, 128].foldl
    (fun f len => lanesRound invLo invHi (· - 1) len (128 / len) (256 / len - 1) f) f).map
    fun v => modq (v * Config.ninv)

/-- The sequential forward network equals the network by lanes (R242). -/
theorem nttNetwork_eq_lanes (f : List Int) (hf : f.length = 256) : nttNetwork f = nttLanes f := by
  have h1 := lanesRound_256 fwdLo fwdHi (· + 1) 128 1 1 _ hf rfl
  have h2 := lanesRound_256 fwdLo fwdHi (· + 1) 64 2 2 _ h1 rfl
  have h3 := lanesRound_256 fwdLo fwdHi (· + 1) 32 4 4 _ h2 rfl
  have h4 := lanesRound_256 fwdLo fwdHi (· + 1) 16 8 8 _ h3 rfl
  have h5 := lanesRound_256 fwdLo fwdHi (· + 1) 8 16 16 _ h4 rfl
  have h6 := lanesRound_256 fwdLo fwdHi (· + 1) 4 32 32 _ h5 rfl
  simp [nttNetwork, nttLanes, nttRound_eq_lanes, hf, h1, h2, h3, h4, h5, h6]

/-- The sequential inverse network equals the network by lanes (R242). -/
theorem inttNetwork_eq_lanes (f : List Int) (hf : f.length = 256) :
    inttNetwork f = inttLanes f := by
  have h1 := lanesRound_256 invLo invHi (· - 1) 2 64 127 _ hf rfl
  have h2 := lanesRound_256 invLo invHi (· - 1) 4 32 63 _ h1 rfl
  have h3 := lanesRound_256 invLo invHi (· - 1) 8 16 31 _ h2 rfl
  have h4 := lanesRound_256 invLo invHi (· - 1) 16 8 15 _ h3 rfl
  have h5 := lanesRound_256 invLo invHi (· - 1) 32 4 7 _ h4 rfl
  have h6 := lanesRound_256 invLo invHi (· - 1) 64 2 3 _ h5 rfl
  simp [inttNetwork, inttLanes, inttRound_eq_lanes, hf, h1, h2, h3, h4, h5, h6]

theorem nttLanes_length (f : List Int) (hf : f.length = 256) : (nttLanes f).length = 256 := by
  have h1 := lanesRound_256 fwdLo fwdHi (· + 1) 128 1 1 _ hf rfl
  have h2 := lanesRound_256 fwdLo fwdHi (· + 1) 64 2 2 _ h1 rfl
  have h3 := lanesRound_256 fwdLo fwdHi (· + 1) 32 4 4 _ h2 rfl
  have h4 := lanesRound_256 fwdLo fwdHi (· + 1) 16 8 8 _ h3 rfl
  have h5 := lanesRound_256 fwdLo fwdHi (· + 1) 8 16 16 _ h4 rfl
  have h6 := lanesRound_256 fwdLo fwdHi (· + 1) 4 32 32 _ h5 rfl
  have h7 := lanesRound_256 fwdLo fwdHi (· + 1) 2 64 64 _ h6 rfl
  exact h7

theorem inttLanes_length (f : List Int) (hf : f.length = 256) : (inttLanes f).length = 256 := by
  have h1 := lanesRound_256 invLo invHi (· - 1) 2 64 127 _ hf rfl
  have h2 := lanesRound_256 invLo invHi (· - 1) 4 32 63 _ h1 rfl
  have h3 := lanesRound_256 invLo invHi (· - 1) 8 16 31 _ h2 rfl
  have h4 := lanesRound_256 invLo invHi (· - 1) 16 8 15 _ h3 rfl
  have h5 := lanesRound_256 invLo invHi (· - 1) 32 4 7 _ h4 rfl
  have h6 := lanesRound_256 invLo invHi (· - 1) 64 2 3 _ h5 rfl
  have h7 := lanesRound_256 invLo invHi (· - 1) 128 1 1 _ h6 rfl
  exact (List.length_map _).trans h7

theorem nttNetwork_length (f : List Int) (hf : f.length = 256) : (nttNetwork f).length = 256 := by
  rw [nttNetwork_eq_lanes f hf, nttLanes_length f hf]

theorem inttNetwork_length (f : List Int) (hf : f.length = 256) : (inttNetwork f).length = 256 := by
  rw [inttNetwork_eq_lanes f hf, inttLanes_length f hf]

end Sys2Proof.Machine
end

