-- ==== Sys2Proof/Tests/Slice0.lean ====
section
/-!
SUPPORT. The model's own tests: the checks of WellFormed, one written-out word per command, one or two
steps per command with results taken from the spec's examples and vectors, the host port, and for each
statement with hypotheses a concrete case that meets them.
-/

-- The tests are checked one after another: many kernel evaluations at once take many thread stacks.
set_option Elab.async false

namespace Sys2Proof.Tests

open Sys2Proof.Machine Sys2Proof.Claims

/-! ### Helpers -/

/-- A register with the same value in all its cells. -/
def constReg (c : Coef) : RingReg := tabulate 256 fun _ => c

/-- The ramp 0, 1, ..., 255. -/
def ramp : RingReg := tabulate 256 fun i => BitVec.ofNat 12 i

/-- A state with every cell and every byte zero, no fault recorded, nothing pending. -/
def zeroed : State :=
  { regs := tabulate 8 fun _ => constReg 0, buf := tabulate 384 fun _ => 0#8, fault := false,
    cause := .none, fcmd := 0#32, result := 0#7, pending := [], answers := [], resets := 0 }

/-- `zeroed` with the given events pending. -/
def zeroedWith (es : List HostEvent) : State := { zeroed with pending := es }

/-- The next state of an outcome. -/
def after (o : Host.Outcome State Fault Refusal) : Option State :=
  match o with
  | .next t => some t
  | .fault _ => none
  | .refused _ => none

/-- Cell k of register r in the next state. -/
def cellAfter (o : Host.Outcome State Fault Refusal) (r : RegNum) (k : Nat) : Option Nat :=
  (after o).map fun t => cell (t.reg r) k

/-- BUF[k] in the next state. -/
def byteAfter (o : Host.Outcome State Fault Refusal) (k : Nat) : Option Nat :=
  (after o).map fun t => byte t k

/-- STATUS and FCMD as they read in the next state. -/
def recordAfter (o : Host.Outcome State Fault Refusal) : Option (Nat × Nat) :=
  (after o).map fun t => (t.statusWord.toNat, t.fcmdWord.toNat)

/-- The latest answer in the next state. -/
def answerAfter (o : Host.Outcome State Fault Refusal) : Option Response :=
  (after o).bind fun t => t.answers.head?

/-- One step on the command word `w` from the state `s`. -/
def onCmd (w : Nat) (s : State) : Host.Outcome State Fault Refusal := step (s.withFetchWord 32 w)

/-- One step on the event `e` from `zeroed`. -/
def onEvent (e : HostEvent) : Host.Outcome State Fault Refusal := step (zeroedWith [e])

theorem cell_of_lt (v : RingReg) (k : Nat) (h : k < 256) : cell v k = v[k].toNat := by
  simp [cell, Vector.getD, h]

theorem byte_of_lt (s : State) (k : Nat) (h : k < 384) : byte s k = s.buf[k].toNat := by
  simp [byte, Vector.getD, h]

theorem cell_constReg (c : Coef) (k : Nat) (h : k < 256) : cell (constReg c) k = c.toNat := by
  rw [cell_of_lt _ k h, constReg, tabulate_getElem]

theorem zeroed_reg (r : RegNum) : zeroed.reg r = constReg 0 := by
  simp [State.reg, zeroed]

theorem cell_zeroed (r : RegNum) (k : Nat) (h : k < 256) : cell (zeroed.reg r) k = 0 := by
  rw [zeroed_reg, cell_constReg _ _ h]; rfl

theorem zeroedWith_reg (es : List HostEvent) (r : RegNum) : (zeroedWith es).reg r = zeroed.reg r := rfl

theorem inRange_zeroed (r : RegNum) (d : Nat) : inRange (zeroed.reg r) d := by
  intro k hk _
  rw [cell_zeroed r k hk]
  exact Nat.two_pow_pos d

theorem isField_zeroed (r : RegNum) : isField (zeroed.reg r) := by
  intro k hk
  rw [cell_zeroed r k hk]
  decide

/-! ### WellFormed: each check refuses an ill-formed term, and the ends of each range pass -/

theorem test_wellFormed_encode_d0 : (Instr.encode 0 0).wellFormed = false := by decide
theorem test_wellFormed_decode_d13 : (Instr.decode 0 13).wellFormed = false := by decide
theorem test_wellFormed_compress_d14 : (Instr.compress 0 0 14).wellFormed = false := by decide
theorem test_wellFormed_decompress_d15 : (Instr.decompress 0 0 15).wellFormed = false := by decide
theorem test_wellFormed_brev7_128 : (Instr.brev7 128).wellFormed = false := by decide
theorem test_wellFormed_ends : (Instr.encode 7 1).wellFormed = true ∧
    (Instr.decompress 7 7 12).wellFormed = true ∧ (Instr.brev7 127).wellFormed = true := by decide

/-! ### Decode: the words of R100, written out field by field from R81 -/

theorem test_decode_encode : decode 0b00000000_0001_0000_0101_0000_00000001#32 = .ok (.encode 5 1) := by
  decide
theorem test_decode_decode : decode 0b00000000_1100_0000_0000_0010_00000010#32 = .ok (.decode 2 12) := by
  decide
theorem test_decode_compress :
    decode 0b00000000_0001_0000_0100_0101_00000011#32 = .ok (.compress 5 4 1) := by decide
theorem test_decode_decompress :
    decode 0b00000000_1010_0000_0111_0000_00000100#32 = .ok (.decompress 0 7 10) := by decide
theorem test_decode_ntt : decode 0b00000000_0000_0000_0000_0001_00000101#32 = .ok (.ntt 1 0) := by decide
theorem test_decode_intt : decode 0b00000000_0000_0000_0011_0011_00000110#32 = .ok (.intt 3 3) := by
  decide
theorem test_decode_mulntt :
    decode 0b00000000_0000_0011_0010_0100_00000111#32 = .ok (.mulntt 4 2 3) := by decide
theorem test_decode_add : decode 0b00000000_0000_0010_0001_0000_00001000#32 = .ok (.add 0 1 2) := by
  decide
theorem test_decode_sub : decode 0b00000000_0000_0101_0110_0111_00001001#32 = .ok (.sub 7 6 5) := by
  decide
theorem test_decode_brev7 : decode 0b00000000_0000_0111_1111_0000_00001010#32 = .ok (.brev7 127) := by
  decide

/-- Rejections by name: an unknown opcode, Z not zero, a register number 8, an unused field. -/
theorem test_decode_rejects :
    decode 0x00000000#32 = .error .unknownOpcode ∧ decode 0x0000000B#32 = .error .unknownOpcode ∧
    decode 0x01000105#32 = .error .nonzeroZ ∧ decode 0x00000805#32 = .error .malformedField ∧
    decode 0x00100105#32 = .error .malformedField := by decide

theorem test_decodeTableWord : decodeTableWord 32 0x00104503 = some (.compress 5 4 1) ∧
    decodeTableWord 32 0x00000000 = none := by decide

/-! ### One step per command, from the spec's examples -/

/-- R140's example: R[5] all 1, ENCODE r5, 1 leaves BUF[0..31] all 0xFF, and BUF[32] as it was. -/
theorem test_encode_ones :
    byteAfter (onCmd 0x00105001 (zeroed.setReg 5 (constReg 1))) 0 = some 0xFF ∧
    byteAfter (onCmd 0x00105001 (zeroed.setReg 5 (constReg 1))) 31 = some 0xFF ∧
    byteAfter (onCmd 0x00105001 (zeroed.setReg 5 (constReg 1))) 32 = some 0 := by decide +kernel

/-- Vectors of section 8: a cell 2 with d = 1 faults OPERAND_RANGE and writes nothing. -/
theorem test_encode_range :
    recordAfter (onCmd 0x00100000 zeroed) = some (0x11, 0x00100000) ∧
    recordAfter (onCmd 0x00100001 (zeroed.setCell 0 255 2)) = some (0x41, 0x00100001) := by
  decide +kernel

/-- R141's example: BUF[0..2] = 05 20 01 decodes with d = 12 to the cells 5 and 18. -/
theorem test_decode_twelve :
    cellAfter (onCmd 0x00C00202 (zeroed.writeBuf [0x05, 0x20, 0x01])) 2 0 = some 5 ∧
    cellAfter (onCmd 0x00C00202 (zeroed.writeBuf [0x05, 0x20, 0x01])) 2 1 = some 18 := by
  decide +kernel

/-- Vectors of section 4.2: FF 0F 00 with d = 12 gives 4095 - 3329 = 766, 01 0D 00 gives 0. -/
theorem test_decode_reduces :
    cellAfter (onCmd 0x00C00002 (zeroed.writeBuf [0xFF, 0x0F, 0x00])) 0 0 = some 766 ∧
    cellAfter (onCmd 0x00C00002 (zeroed.writeBuf [0x01, 0x0D, 0x00])) 0 0 = some 0 := by
  decide +kernel

/-- R151's example and its corner cases: 1664 gives 1 with d = 1, 4095 gives 942 with d = 12. -/
theorem test_compress :
    cellAfter (onCmd 0x00104503 (zeroed.setReg 4 (constReg 1664))) 5 0 = some 1 ∧
    cellAfter (onCmd 0x00C04503 (zeroed.setReg 4 (constReg 4095))) 5 255 = some 942 := by
  decide +kernel

/-- R152's example: 1 gives 1665 with d = 1; section 8: 1024 with d = 10 faults. -/
theorem test_decompress :
    cellAfter (onCmd 0x00107004 (zeroed.setReg 7 (constReg 1))) 0 0 = some 1665 ∧
    recordAfter (onCmd 0x00A07004 (zeroed.setReg 7 (constReg 1024))) = some (0x41, 0x00A07004) := by
  decide +kernel

/-- Section 5: the ramp's transform begins 2429, 2845 and ends 2303. -/
theorem test_ntt_ramp :
    cellAfter (exec (.ntt 1 0) (zeroed.setReg 0 ramp)) 1 0 = some 2429 ∧
    cellAfter (exec (.ntt 1 0) (zeroed.setReg 0 ramp)) 1 255 = some 2303 := by
  simp only [exec_ntt, cellAfter, after, Option.map_some, State.setDest_reg_same, State.source,
    State.setReg_reg_same]
  rw [nttNetwork_eq_lanes _ (ints_length _)]
  decide +kernel

/-- Section 5: INTT of the ramp has 127 in cell 0, 799 in cell 128 and 2133 in cell 255. -/
theorem test_intt_ramp :
    cellAfter (exec (.intt 1 0) (zeroed.setReg 0 ramp)) 1 0 = some 127 ∧
    cellAfter (exec (.intt 1 0) (zeroed.setReg 0 ramp)) 1 128 = some 799 := by
  simp only [exec_intt, cellAfter, after, Option.map_some, State.setDest_reg_same, State.source,
    State.setReg_reg_same]
  rw [inttNetwork_eq_lanes _ (ints_length _)]
  decide +kernel

/-- Section 5: the first butterfly of the ramp's first round, by hand. -/
theorem test_butterfly : entry (butterfly 1729 128 (ints ramp) 0) 0 = 1598 ∧
    entry (butterfly 1729 128 (ints ramp) 0) 128 = 1731 := by decide +kernel

/-- Section 6: block 1 of the ramp times itself is (3180, 12); the last cell is 3038. -/
theorem test_mulntt_ramp :
    cellAfter (onCmd 0x00000107 (zeroed.setReg 0 ramp)) 1 2 = some 3180 ∧
    cellAfter (onCmd 0x00000107 (zeroed.setReg 0 ramp)) 1 3 = some 12 ∧
    cellAfter (onCmd 0x00000107 (zeroed.setReg 0 ramp)) 1 255 = some 3038 := by decide +kernel

/-- R181's example, and section 7: 4095 + 4095 gives 1532. -/
theorem test_add :
    cellAfter (onCmd 0x00021008 ((zeroed.setReg 1 (constReg 3000)).setReg 2 (constReg 400))) 0 0
      = some 71 ∧
    cellAfter (onCmd 0x00011108 (zeroed.setReg 1 (constReg 4095))) 1 255 = some 1532 := by
  decide +kernel

/-- R182's example, and section 7: 0 - 4095 gives 2563. -/
theorem test_sub :
    cellAfter (onCmd 0x00056709 ((zeroed.setReg 6 (constReg 5)).setReg 5 (constReg 7))) 7 0
      = some 3327 ∧
    cellAfter (onCmd 0x00010009 (zeroed.setReg 1 (constReg 4095))) 0 255 = some 2563 := by
  decide +kernel

/-- R190's examples: BREV7 3 gives 96; BREV7 128 faults and leaves RESULT. -/
theorem test_brev7 :
    (after (onCmd 0x0000300A zeroed)).map (fun t => t.resultWord.toNat) = some 96 ∧
    recordAfter (onCmd 0x0008000A zeroed) = some (0x31, 0x0008000A) := by decide +kernel

/-- Entries of the tables of R115, R116 and R117. -/
theorem test_twiddles : bitrev7 100 = 19 ∧ zeta 1 = 1729 ∧ zeta 127 = 2154 ∧ gamma 0 = 17 ∧
    gamma 127 = 1175 := by decide +kernel

/-- From the power-on state with nothing placed, the first command word is executed: the outcome is a
next state whatever the unspecified cells hold. -/
theorem test_first_command_from_reset :
    (after (step (State.reset.withFetchWord 32 0x00101001))).isSome = true ∧
    (after (step (State.reset.withFetchWord 32 0x00A07004))).isSome = true ∧
    (after (step (State.reset.withFetchWord 32 0x00000105))).isSome = true := ⟨rfl, rfl, rfl⟩

/-! ### The host port, from section 8 of the vectors -/

theorem test_port_coefficient :
    answerAfter (onEvent (.read .coef 0x0E02 .two)) = some (.data (.two 0)) ∧
    cellAfter (onEvent (.write .coef 0x0020 (.two 0xF00F))) 0 16 = some 0x00F ∧
    answerAfter (onEvent (.read .coef 1 .two)) = some .accessError ∧
    answerAfter (onEvent (.read .coef 0 .four)) = some .accessError ∧
    answerAfter (onEvent (.read .coef 4096 .two)) = some .accessError := by decide +kernel

theorem test_port_buf :
    answerAfter (onEvent (.read .buf 383 .one)) = some (.data (.one 0)) ∧
    answerAfter (onEvent (.read .buf 384 .one)) = some .accessError ∧
    byteAfter (onEvent (.write .buf 383 (.one 0xA5))) 383 = some 0xA5 := by decide +kernel

theorem test_port_csr :
    answerAfter (onEvent (.read .csr 0x00 .four)) = some (.data (.four 0x0D010100)) ∧
    answerAfter (onEvent (.read .csr 0x04 .four)) = some .accessError ∧
    answerAfter (onEvent (.read .csr 0x18 .four)) = some .accessError ∧
    answerAfter (onEvent (.write .csr 0x08 (.four 1))) = some .accessError ∧
    answerAfter (onEvent (.busRead 0x1200 .four)) = some (.data (.four 0x0D010100)) ∧
    answerAfter (onEvent (.busRead 0x1180 .one)) = some .accessError := by decide +kernel

/-- In the fault state an illegal word is dropped, not recorded, and a write of 1 to CTRL clears the
record (Program 4). -/
theorem test_fault_state :
    recordAfter (onCmd 0xFFFFFFFF (zeroed.raiseFault .operandRange 0x00400001)) =
      some (0x41, 0x00400001) ∧
    recordAfter (step { zeroed.raiseFault .operandRange 0x00400001 with
      pending := [.write .csr 0x14 (.four 1)] }) = some (0, 0) := by decide +kernel

/-! ### Witnesses: a concrete case that meets all the hypotheses of each statement -/

theorem witness_DecodedWordIsTheCommandsWord : decode 0x00105001#32 = .ok (.encode 5 1) := by decide

theorem witness_MalformedWordsAreIllegal :
    malformed 0x00000805#32 ∧ (zeroedWith [cmdEvent 0x00000805#32]).fault = false ∧
    (zeroedWith [cmdEvent 0x00000805#32]).pending = cmdEvent 0x00000805#32 :: [] :=
  ⟨by unfold malformed; decide, rfl, rfl⟩

/-- One word for each clause: register number 8, d = 13, idx = 128, a cell 2 with d = 1, BREV7 127. -/
theorem witness_CommandOutcomeIsTheFirstFailingCheck :
    malformed 0x00000805#32 ∧
    (¬ malformed 0x00D04503#32 ∧ hasIllegalD 0x00D04503#32) ∧
    (¬ malformed 0x0008000A#32 ∧ ¬ hasIllegalD 0x0008000A#32 ∧ hasIllegalIdx 0x0008000A#32) ∧
    (¬ malformed 0x00100001#32 ∧ ¬ hasIllegalD 0x00100001#32 ∧ ¬ hasIllegalIdx 0x00100001#32 ∧
      hasWideCell 0x00100001#32 (zeroed.setCell 0 255 2)) ∧
    (¬ malformed 0x0007F00A#32 ∧ ¬ hasIllegalD 0x0007F00A#32 ∧ ¬ hasIllegalIdx 0x0007F00A#32 ∧
      ¬ hasWideCell 0x0007F00A#32 zeroed) ∧
    zeroed.fault = false := by
  refine ⟨by unfold malformed; decide,
    ⟨by unfold malformed; decide, by unfold hasIllegalD; decide⟩,
    ⟨by unfold malformed; decide, by unfold hasIllegalD; decide, by unfold hasIllegalIdx; decide⟩,
    ⟨by unfold malformed; decide, by unfold hasIllegalD; decide, by unfold hasIllegalIdx; decide,
      .inl (by decide), by decide, 255, by decide, by decide +kernel⟩,
    ⟨by unfold malformed; decide, by unfold hasIllegalD; decide, by unfold hasIllegalIdx; decide,
      fun h => absurd h.1 (by decide)⟩, rfl⟩

theorem witness_StepRunsTheDecodedCommand :
    (zeroedWith [cmdEvent 0x0007F00A#32]).pending = cmdEvent 0x0007F00A#32 :: [] ∧
    (zeroedWith [.busWrite 0x1204#13 (.four 0x0007F00A#32)]).pending =
      .busWrite 0x1204#13 (.four 0x0007F00A#32) :: [] ∧
    (zeroedWith [cmdEvent 0x0007F00A#32]).fault = false ∧
    decode 0x0007F00A#32 = .ok (.brev7 127) ∧
    exec (.brev7 127) zeroed = .next (zeroed.setResult 127) :=
  ⟨rfl, rfl, rfl, by decide, rfl⟩

theorem witness_FaultStateDropsEveryCommand :
    (zeroedWith [cmdEvent 0xFFFFFFFF#32] |>.raiseFault .illegalD 0x00004503#32).fault = true ∧
    (zeroedWith [cmdEvent 0xFFFFFFFF#32] |>.raiseFault .illegalD 0x00004503#32).pending =
      cmdEvent 0xFFFFFFFF#32 :: [] := ⟨rfl, rfl⟩

theorem witness_OnlyAResetLeavesTheFaultState :
    (zeroed.raiseFault .illegalD 0x00004503#32).fault = true ∧
    step (zeroed.raiseFault .illegalD 0x00004503#32) =
      .next (zeroed.raiseFault .illegalD 0x00004503#32) ∧
    step (zeroedWith [.rst] |>.raiseFault .illegalD 0x00004503#32) =
      .next (zeroed.raiseFault .illegalD 0x00004503#32).afterReset := ⟨rfl, rfl, rfl⟩

theorem witness_EveryStepKeepsTheFaultRecordCoherent :
    zeroed.recordInv ∧ step zeroed = .next zeroed := by
  refine ⟨⟨fun _ => ⟨rfl, rfl⟩, fun h => ?_⟩, rfl⟩
  simp [zeroed] at h

/-- A state in the fault state whose record is coherent. -/
theorem witness_CsrWordsShowTheirFields :
    (zeroed.raiseFault .illegalD 0x00004503#32).recordInv := by
  refine ⟨fun h => ?_, fun _ => ?_⟩
  · simp at h
  · exact ⟨rfl, rfl⟩

theorem witness_IllegalD : (0#4 = 0 ∨ 0#4 = 13 ∨ 0#4 = 14 ∨ 0#4 = 15) ∧
    (13#4 = 0 ∨ 13#4 = 13 ∨ 13#4 = 14 ∨ 13#4 = 15) ∧
    (15#4 = 0 ∨ 15#4 = 13 ∨ 15#4 = 14 ∨ 15#4 = 15) := by decide

/-- The ends of the range: d = 1 with a cell 2, d = 11 with a cell 2048. -/
theorem witness_WideCell :
    (1 ≤ (1#4).toNat ∧ (1#4).toNat < 12 ∧ 2 ^ (1#4).toNat ≤ cell ((zeroed.setCell 0 0 2).reg 0) 0) ∧
    (1 ≤ (11#4).toNat ∧ (11#4).toNat < 12 ∧
      2 ^ (11#4).toNat ≤ cell ((zeroed.setCell 0 255 2048).reg 0) 255) := by decide +kernel

theorem witness_CtrlWriteResetsOnBitZero :
    (zeroedWith [.write .csr 0x14 (.four 2)]).pending = .write .csr 0x14 (.four 2) :: [] ∧
    (2#32).getLsbD 0 = false ∧
    (zeroedWith [.write .csr 0x14 (.four 3)]).pending = .write .csr 0x14 (.four 3) :: [] ∧
    (3#32).getLsbD 0 = true ∧
    (zeroedWith [.read .csr 0x14 .four]).pending = .read .csr 0x14 .four :: [] :=
  ⟨rfl, by decide, rfl, by decide, rfl⟩

theorem witness_ResetInputClearsTheRecord : (zeroedWith [.rst]).pending = .rst :: [] := rfl

/-- The last cell, R[7][255], at offset 4094. -/
theorem witness_CoefficientAccess :
    (zeroedWith [.read .coef 4094 .two]).pending =
      .read .coef ((7 : RegNum).val * 512 + (255 : Fin 256).val * 2) .two :: [] ∧
    (zeroedWith [.write .coef 4094 (.two 0xFFFF)]).pending =
      .write .coef ((7 : RegNum).val * 512 + (255 : Fin 256).val * 2) (.two 0xFFFF) :: [] :=
  ⟨rfl, rfl⟩

theorem witness_ByteAccess :
    (zeroedWith [.read .buf 383 .one]).pending = .read .buf (383 : Fin 384).val .one :: [] ∧
    (zeroedWith [.write .buf 0 (.one 255)]).pending =
      .write .buf (0 : Fin 384).val (.one 255) :: [] := ⟨rfl, rfl⟩

theorem witness_CsrRead :
    ∀ addr ∈ [0x00, 0x08, 0x0C, 0x10],
      (zeroedWith [.read .csr addr .four]).pending = .read .csr addr .four :: [] := by
  intro addr _; rfl

/-- Both sides of each bound of R51's table. -/
theorem witness_AccessError :
    (HostEvent.read .coef 4094 .two).admitted ∧ ¬ (HostEvent.read .coef 4095 .two).admitted ∧
    ¬ (HostEvent.read .coef 4096 .two).admitted ∧
    (HostEvent.write .buf 383 (.one 0)).admitted ∧ ¬ (HostEvent.write .buf 384 (.one 0)).admitted ∧
    (HostEvent.write .csr 0x14 (.four 0)).admitted ∧
    ¬ (HostEvent.read .csr 0x14 .four).admitted := by
  simp [HostEvent.admitted]

theorem witness_BusWindow :
    (0xFFF#13).toNat = 0xFFF ∧ (0x117F#13).toNat = 0x1000 + 0x17F ∧
    (0x1217#13).toNat = 0x1200 + 0x17 ∧
    (0x1180 ≤ (0x1180#13).toNat ∧ (0x1180#13).toNat < 0x1200) ∧
    (0x1180 ≤ (0x11FF#13).toNat ∧ (0x11FF#13).toNat < 0x1200) ∧ 0x1218 ≤ (0x1218#13).toNat ∧
    windowOffset 0x4000 0x5FFF = some 0x1FFF#13 := by decide

/-- The same location and another one. -/
theorem witness_ReadReturnsTheLatestWrite (i' : Fin 256) (h : i' = 0 ∨ i' = 255) :
    ∃ s t u : State, s.pending =
      .write .coef ((0 : RegNum).val * 512 + (0 : Fin 256).val * 2) (.two 7) ::
        .read .coef ((0 : RegNum).val * 512 + i'.val * 2) .two :: [] ∧
      step s = .next t ∧ step t = .next u := by
  refine ⟨zeroedWith [.write .coef 0 (.two 7), .read .coef (i'.val * 2) .two], _, _, ?_, rfl, rfl⟩
  rcases h with rfl | rfl <;> rfl

theorem witness_IdleEngine : zeroed.pending = [] := rfl

theorem witness_EveryStepServesOneEvent :
    (zeroedWith [.rst]).pending = .rst :: [] ∧ step (zeroedWith [.rst]) = .next zeroed.afterReset ∧
    HostEvent.rst.isTransaction = false ∧
    step (zeroedWith [.read .buf 384 .one]) = .next (zeroed.answer .accessError) ∧
    (HostEvent.read .buf 384 .one).isTransaction = true := ⟨rfl, rfl, rfl, rfl, rfl⟩

/-- A cell that a coefficient write changes, and one that a command changes. -/
theorem witness_RegisterChanges :
    (cellAfter (onEvent (.write .coef 0 (.two 7))) 0 0 = some 7 ∧ cell (zeroed.reg 0) 0 = 0) ∧
    cellAfter (onCmd 0x00000008 (zeroed.setReg 0 (constReg 1))) 0 0 = some 2 := by decide +kernel

/-- A byte that a byte write changes, and one that ENCODE changes. -/
theorem witness_ByteChanges :
    (byteAfter (onEvent (.write .buf 9 (.one 7))) 9 = some 7 ∧ byte zeroed 9 = 0) ∧
    byteAfter (onCmd 0x00105001 (zeroed.setReg 5 (constReg 1))) 31 = some 0xFF := by decide +kernel

theorem witness_ResultChanges :
    step (zeroedWith [cmdEvent 0x0000100A#32]) = .next ((zeroed.setResult 64).answer .ok) ∧
    (zeroed.setResult 64).result ≠ zeroed.result := ⟨rfl, by decide⟩

/-- The legal operand d at both ends of its range, with a source in range. -/
theorem witness_legalD_inRange :
    (1 ≤ (1#4).toNat ∧ (1#4).toNat ≤ 12 ∧ inRange (zeroed.reg 0) (1#4).toNat) ∧
    (1 ≤ (12#4).toNat ∧ (12#4).toNat ≤ 12 ∧ inRange (zeroed.reg 0) (12#4).toNat ∧
      isField (zeroed.reg 0)) :=
  ⟨⟨by decide, by decide, inRange_zeroed 0 _⟩, ⟨by decide, by decide, inRange_zeroed 0 _,
    isField_zeroed 0⟩⟩

theorem witness_CompressAfterDecompressIsExact :
    1 ≤ (11#4).toNat ∧ (11#4).toNat ≤ 11 ∧ inRange (zeroed.reg 0) (11#4).toNat :=
  ⟨by decide, by decide, inRange_zeroed 0 _⟩

/-- Two states that differ in the first byte DECODE does not read, with d = 11. -/
theorem witness_DecodeIgnoresBytesAboveItsFields :
    (∀ k, k < 32 * (11#4).toNat → byte zeroed k = byte (zeroed.setByte 352 1) k) ∧
    byte zeroed 352 ≠ byte (zeroed.setByte 352 1) 352 ∧
    (after (exec (.decode 0 11) zeroed)).isSome = true := by
  refine ⟨fun k hk => ?_, by decide +kernel, rfl⟩
  have hk' : k < 352 := hk
  have h : k < 384 := by omega
  have := State.setByte_buf_getElem zeroed 352 ⟨k, h⟩ 1
  have ne : (⟨k, h⟩ : Fin 384) ≠ 352 := fun e => by
    have := congrArg Fin.val e
    simp at this
    omega
  rw [if_neg ne] at this
  rw [byte_of_lt _ k h, byte_of_lt _ k h]
  exact congrArg BitVec.toNat this.symm

theorem witness_BitsAndBytes : ([] : List Bool).length % 8 = 0 ∧
    [true, false, true, true, false, false, true, true].length % 8 = 0 := by decide

theorem witness_RoundNearest : (0 : Int) ≤ 3329 ∧ (0 : Int) < 2 := by decide

theorem witness_Butterflies :
    (ints ramp).length = 256 ∧ 0 < 128 ∧ 127 + 128 < 256 := ⟨ints_length _, by decide, by decide⟩

theorem witness_TransformsAreLinear :
    (ints ramp).length = 256 ∧ (ints (constReg 1)).length = 256 := ⟨ints_length _, ints_length _⟩

/-- The first and the last group of a round: one group at len = 128, group 63 at len = 2. -/
theorem witness_NetworksEqualRoundsAtOnce : (ints ramp).length = 256 ∧
    128 ∈ [2, 4, 8, 16, 32, 64, 128] ∧ 0 < 128 / 128 ∧
    2 ∈ [2, 4, 8, 16, 32, 64, 128] ∧ 63 < 128 / 2 :=
  ⟨ints_length _, by decide, by decide, by decide, by decide⟩

/-- Cells all 4095 and cells all 766 (R167, R173). -/
theorem witness_ResiduesOnly :
    (∀ k, k < 256 → cell ((zeroed.setReg 0 (constReg 766)).reg 0) k =
      cell ((zeroed.setReg 0 (constReg 4095)).reg 0) k % 3329) ∧
    sameResidues ((zeroed.setReg 0 (constReg 766)).reg 0)
      ((zeroed.setReg 0 (constReg 4095)).reg 0) := by
  refine ⟨fun k hk => ?_, fun k hk => ?_⟩ <;>
    (simp only [State.setReg_reg_same, cell_constReg _ k hk]; decide)

/-- Ring product: registers c = 2, b = 1, d = 3 and field values in R[0] and R[1]. -/
theorem witness_TransformProduct : (2 : RegNum) ≠ 1 ∧ (2 : RegNum) ≠ 3 ∧ isField (zeroed.reg 0) ∧
    isField (zeroed.reg 1) := ⟨by decide, by decide, isField_zeroed 0, isField_zeroed 1⟩

/-- The unit of MULNTT: pairs (1, 0). -/
theorem witness_MulnttUnit :
    ∀ i, i < 128 →
      cell (tabulate 256 fun k => BitVec.ofNat 12 ((k + 1) % 2)) (2 * i) = 1 ∧
      cell (tabulate 256 fun k => BitVec.ofNat 12 ((k + 1) % 2)) (2 * i + 1) = 0 := by
  intro i hi
  have h0 : 2 * i < 256 := by omega
  have h1 : 2 * i + 1 < 256 := by omega
  have e0 : (2 * i + 1) % 2 = 1 := by omega
  have e1 : (2 * i + 1 + 1) % 2 = 0 := by omega
  rw [cell_of_lt _ _ h0, cell_of_lt _ _ h1, tabulate_getElem, tabulate_getElem, e0, e1]
  exact ⟨rfl, rfl⟩

/-- Both clauses of R183, at 3328 and at 3329. -/
theorem witness_AddAndSubUndoEachOther : (2 : RegNum) ≠ 1 ∧
    cell ((zeroed.setReg 0 (constReg 3328)).reg 0) 0 < 3329 ∧
    3329 ≤ cell ((zeroed.setReg 0 (constReg 3329)).reg 0) 0 := by decide +kernel

theorem witness_ResultsDependOnSourcesOnly :
    sameCells (zeroed.reg 0) (zeroed.afterReset |>.setReg 0 (constReg 0) |>.reg 0) := by
  intro k _
  rw [State.setReg_reg_same, zeroed_reg]

theorem witness_Brev7 : (127#8).toNat ≤ 127 ∧ 128 ≤ (128#8).toNat := by decide

end Sys2Proof.Tests
end

section
/-!
SUPPORT. The decoder read backwards (R81 to R84): a word that passes the mask of its row has zeros
in every place the format leaves empty, so it is put together again from its fields.
-/

namespace Sys2Proof

/-- A word with only the field OP. -/
def opWord (op : BitVec 8) : Word32 := op.setWidth 32

section Masked
variable {w m : Word32} {op : BitVec 8}

/-- A masked word, seen through one of its fields. -/
theorem masked_field {v : Word32} (h : w &&& m = v) (k n : Nat) :
    w.extractLsb' k n &&& m.extractLsb' k n = v.extractLsb' k n := by
  rw [← h, BitVec.extractLsb'_and]

theorem opWord_field_op : (opWord op).extractLsb' 0 8 = op := by
  ext i hi
  have : i < 32 := by omega
  simp [opWord, hi, this]

/-- Every field above OP is zero in a word that has only an opcode. -/
theorem opWord_field_above {k n : Nat} (hk : 8 ≤ k) : (opWord op).extractLsb' k n = 0#n := by
  ext i hi
  have : op.getLsbD (k + i) = false := BitVec.getLsbD_of_ge op (k + i) (by omega)
  simp [opWord, this]

/-- A digit the mask covers whole is zero. -/
theorem digit_eq_zero_of_masked (h : w &&& m = opWord op) {k : Nat} (hk : 8 ≤ k)
    (hm : m.extractLsb' k 4 = 0xF#4) : w.extractLsb' k 4 = 0#4 := by
  have hf := masked_field h k 4
  rw [hm, opWord_field_above hk] at hf
  exact (BitVec.and_allOnes (x := w.extractLsb' k 4)).symm.trans hf

/-- A digit of which the mask covers the top bit is the field of a register number (R81). -/
theorem regField_of_masked (h : w &&& m = opWord op) {k : Nat} (hk : 8 ≤ k)
    (hm : m.extractLsb' k 4 = 8#4) : regField (w.extractLsb' k 3).toFin = w.extractLsb' k 4 := by
  have hf := masked_field h k 4
  rw [hm, opWord_field_above hk] at hf
  have low : w.extractLsb' k 3 = (w.extractLsb' k 4).extractLsb' 0 3 := by
    ext i hi
    have : i < 4 := by omega
    simp [this]
  rw [low]
  generalize w.extractLsb' k 4 = x at hf
  revert x; decide

/-- A word is its six fields in a row (R81). -/
theorem fields_append (w : Word32) :
    w.extractLsb' 24 8 ++ w.extractLsb' 20 4 ++ w.extractLsb' 16 4 ++ w.extractLsb' 12 4 ++
      w.extractLsb' 8 4 ++ w.extractLsb' 0 8 = w := by
  rw [BitVec.extractLsb'_append_extractLsb'_eq_extractLsb' (by rfl),
    BitVec.extractLsb'_append_extractLsb'_eq_extractLsb' (by rfl),
    BitVec.extractLsb'_append_extractLsb'_eq_extractLsb' (by rfl),
    BitVec.extractLsb'_append_extractLsb'_eq_extractLsb' (by rfl),
    BitVec.extractLsb'_append_extractLsb'_eq_extractLsb' (by rfl)]
  exact BitVec.extractLsb'_eq_self

/-- A word whose fields Z and OP are masked whole is made of its four digits and its opcode. -/
theorem wordOf_digits_of_masked (h : w &&& m = opWord op) (hz : m.extractLsb' 24 8 = 0xFF#8)
    (ho : m.extractLsb' 0 8 = 0xFF#8) :
    wordOf (w.extractLsb' 20 4) (w.extractLsb' 16 4) (w.extractLsb' 12 4) (w.extractLsb' 8 4) op
      = w := by
  have z := masked_field h 24 8
  have o := masked_field h 0 8
  rw [hz, opWord_field_above (by decide)] at z
  rw [ho, opWord_field_op] at o
  have z' : w.extractLsb' 24 8 = 0#8 := (BitVec.and_allOnes (x := w.extractLsb' 24 8)).symm.trans z
  have o' : w.extractLsb' 0 8 = op := (BitVec.and_allOnes (x := w.extractLsb' 0 8)).symm.trans o
  have f := fields_append w
  rwa [z', o'] at f

/-! One lemma per format of R82. -/

theorem wordOf_format_ra_d (h : w &&& 0xFF0F8FFF#32 = opWord op) :
    wordOf (fieldD w) 0 (regField (fieldRA w)) 0 op = w := by
  have e := wordOf_digits_of_masked h rfl rfl
  rwa [digit_eq_zero_of_masked h (k := 16) (by decide) rfl,
    ← regField_of_masked h (k := 12) (by decide) rfl,
    digit_eq_zero_of_masked h (k := 8) (by decide) rfl] at e

theorem wordOf_format_rd_d (h : w &&& 0xFF0FF8FF#32 = opWord op) :
    wordOf (fieldD w) 0 0 (regField (fieldRD w)) op = w := by
  have e := wordOf_digits_of_masked h rfl rfl
  rwa [digit_eq_zero_of_masked h (k := 16) (by decide) rfl,
    digit_eq_zero_of_masked h (k := 12) (by decide) rfl,
    ← regField_of_masked h (k := 8) (by decide) rfl] at e

theorem wordOf_format_rd_ra_d (h : w &&& 0xFF0F88FF#32 = opWord op) :
    wordOf (fieldD w) 0 (regField (fieldRA w)) (regField (fieldRD w)) op = w := by
  have e := wordOf_digits_of_masked h rfl rfl
  rwa [digit_eq_zero_of_masked h (k := 16) (by decide) rfl,
    ← regField_of_masked h (k := 12) (by decide) rfl,
    ← regField_of_masked h (k := 8) (by decide) rfl] at e

theorem wordOf_format_rd_ra (h : w &&& 0xFFFF88FF#32 = opWord op) :
    wordOf 0 0 (regField (fieldRA w)) (regField (fieldRD w)) op = w := by
  have e := wordOf_digits_of_masked h rfl rfl
  rwa [digit_eq_zero_of_masked h (k := 20) (by decide) rfl,
    digit_eq_zero_of_masked h (k := 16) (by decide) rfl,
    ← regField_of_masked h (k := 12) (by decide) rfl,
    ← regField_of_masked h (k := 8) (by decide) rfl] at e

theorem wordOf_format_rd_ra_rb (h : w &&& 0xFFF888FF#32 = opWord op) :
    wordOf 0 (regField (fieldRB w)) (regField (fieldRA w)) (regField (fieldRD w)) op = w := by
  have e := wordOf_digits_of_masked h rfl rfl
  rwa [digit_eq_zero_of_masked h (k := 20) (by decide) rfl,
    ← regField_of_masked h (k := 16) (by decide) rfl,
    ← regField_of_masked h (k := 12) (by decide) rfl,
    ← regField_of_masked h (k := 8) (by decide) rfl] at e

theorem wordOf_format_idx (h : w &&& 0xFFF00FFF#32 = opWord op) :
    wordOf 0 ((fieldIDX w).extractLsb' 4 4) ((fieldIDX w).extractLsb' 0 4) 0 op = w := by
  have e := wordOf_digits_of_masked h rfl rfl
  have hi : (fieldIDX w).extractLsb' 4 4 = w.extractLsb' 16 4 := by
    ext i _
    have : 4 + i < 8 := by omega
    simp [fieldIDX, this, ← Nat.add_assoc]
  have lo : (fieldIDX w).extractLsb' 0 4 = w.extractLsb' 12 4 := by
    ext i _
    have : i < 8 := by omega
    simp [fieldIDX, this]
  rwa [digit_eq_zero_of_masked h (k := 20) (by decide) rfl, ← hi, ← lo,
    digit_eq_zero_of_masked h (k := 8) (by decide) rfl] at e

end Masked

/-- Settles O2: a word passes the mask of its row, and then its format gives it back. -/
theorem decodedWordIsTheCommandsWord : Obligations.DecodedWordIsTheCommandsWord := by
  intro w i h
  unfold decode at h
  split at h
  case isTrue m => cases h; exact wordOf_format_ra_d (op := 0x01) m
  split at h
  case isTrue m => cases h; exact wordOf_format_rd_d (op := 0x02) m
  split at h
  case isTrue m => cases h; exact wordOf_format_rd_ra_d (op := 0x03) m
  split at h
  case isTrue m => cases h; exact wordOf_format_rd_ra_d (op := 0x04) m
  split at h
  case isTrue m => cases h; exact wordOf_format_rd_ra (op := 0x05) m
  split at h
  case isTrue m => cases h; exact wordOf_format_rd_ra (op := 0x06) m
  split at h
  case isTrue m => cases h; exact wordOf_format_rd_ra_rb (op := 0x07) m
  split at h
  case isTrue m => cases h; exact wordOf_format_rd_ra_rb (op := 0x08) m
  split at h
  case isTrue m => cases h; exact wordOf_format_rd_ra_rb (op := 0x09) m
  split at h
  case isTrue m => cases h; exact wordOf_format_idx (op := 0x0A) m
  cases h

end Sys2Proof
end

section
/-!
SUPPORT. The terms of the statements (`cell`, `byte`, `onlyDest`) after each write of the state.
-/

namespace Sys2Proof.Machine

open Sys2Proof.Claims

/-- The value of a cell of a register is the entry of the register. -/
theorem cell_eq_getElem (v : RingReg) {k : Nat} (h : k < 256) : cell v k = v[k].toNat := by
  simp [cell, Vector.getD, h]

/-- A coefficient write leaves the other registers alone (R56). -/
theorem State.setCell_reg_other (s : State) {r r' : RegNum} (i : Fin 256) (v : Coef) (h : r' ≠ r) :
    (s.setCell r i v).reg r' = s.reg r' :=
  s.setReg_reg_other _ h

/-- Writing a destination changes nothing else (R23). -/
theorem onlyDest_setDest (s : State) (rd : RegNum) (vs : List Int) :
    onlyDest rd s (s.setDest rd vs) :=
  ⟨fun r hr _ _ => by rw [s.setDest_reg, if_neg hr], fun _ _ _ => rfl, ⟨rfl, rfl, rfl⟩, rfl,
    rfl, rfl, rfl⟩

/-- The value of a byte of BUF is the entry of the buffer. -/
theorem byte_eq_getElem (s : State) {k : Nat} (h : k < 384) : byte s k = s.buf[k].toNat := by
  simp [byte, Vector.getD, h]

/-- Bytes above those written keep their value (R26, R140). -/
theorem byte_writeBuf_above (s : State) {b : List Byte} {k : Nat} (h : k < 384)
    (hb : b.length ≤ k) : byte (s.writeBuf b) k = byte s k := by
  rw [byte_eq_getElem _ h, byte_eq_getElem _ h, s.writeBuf_buf_getElem b k h,
    dif_neg (by omega)]

/-- A byte write changes no other byte (R58). -/
theorem byte_setByte_other (s : State) {j : Fin 384} (v : Byte) {k : Nat} (h : k < 384)
    (hk : k ≠ j.val) : byte (s.setByte j v) k = byte s k := by
  have hne : (⟨k, h⟩ : Fin 384) ≠ j := fun e => hk (congrArg Fin.val e)
  have hbuf := s.setByte_buf_getElem j ⟨k, h⟩ v
  rw [if_neg hne] at hbuf
  rw [byte_eq_getElem _ h, byte_eq_getElem _ h]
  exact congrArg BitVec.toNat hbuf

end Sys2Proof.Machine
end

section
/-!
SUPPORT. Inversion of one command and of one host event, with the facts the invariants need: which
command wrote what, which operand check raised which cause, and which event led there.
-/

namespace Sys2Proof.Machine

open Sys2Proof.Claims

/-- What a command can do, the command named in each case: take a fault its word explains (R203),
write its destination (R23), write 32*d bytes of BUF (R140), write RESULT (R190). -/
inductive CommandEffect (i : Instr) (s : State) : State → Prop
  | fault (c : Cause) (h : ∀ w, decode w = .ok i → causeFits c w) :
    CommandEffect i s (s.raiseFault c (encode i))
  | dest (rd : RegNum) (vs : List Int) (h : destOf i = some rd) :
    CommandEffect i s (s.setDest rd vs)
  | bytes (ra : RegNum) (d : BitVec 4) (b : List Byte) (h : i = .encode ra d)
    (hb : b.length = 32 * d.toNat) : CommandEffect i s (s.writeBuf b)
  | result (idx : BitVec 8) (v : BitVec 7) (h : i = .brev7 idx) (hidx : idx.toNat ≤ 127) :
    CommandEffect i s (s.setResult v)

/-- OPERAND_RANGE is raised only with d below 12 (R201). -/
theorem lt_of_outOfRange {f : List Int} {d : Nat} (h : outOfRange f d = true) : d < 12 := by
  simp only [outOfRange, Bool.and_eq_true, decide_eq_true_eq] at h
  exact h.1

/-- Every command completes, with one of these effects. -/
theorem exec_effect (i : Instr) (s : State) : ∃ t, exec i s = .next t ∧ CommandEffect i s t := by
  cases i with
  | encode ra d =>
    obtain ⟨hd, h⟩ | ⟨hd, ho, h⟩ | ⟨hd, ho, h⟩ := execEncode_cases s ra d
    · exact ⟨_, h, .fault _ fun w hw => by simp [causeFits, hw, hd]⟩
    · exact ⟨_, h, .fault _ fun w hw => by simp [causeFits, hw, hd, lt_of_outOfRange ho]⟩
    · exact ⟨_, h, .bytes ra d _ rfl (byteEncode_length _ _ (s.source_length ra))⟩
  | decode rd d =>
    obtain ⟨hd, h⟩ | ⟨hd, h⟩ := execDecode_cases s rd d
    · exact ⟨_, h, .fault _ fun w hw => by simp [causeFits, hw, hd]⟩
    · exact ⟨_, h, .dest rd _ rfl⟩
  | compress rd ra d =>
    obtain ⟨hd, h⟩ | ⟨hd, h⟩ := execCompress_cases s rd ra d
    · exact ⟨_, h, .fault _ fun w hw => by simp [causeFits, hw, hd]⟩
    · exact ⟨_, h, .dest rd _ rfl⟩
  | decompress rd ra d =>
    obtain ⟨hd, h⟩ | ⟨hd, ho, h⟩ | ⟨hd, ho, h⟩ := execDecompress_cases s rd ra d
    · exact ⟨_, h, .fault _ fun w hw => by simp [causeFits, hw, hd]⟩
    · exact ⟨_, h, .fault _ fun w hw => by simp [causeFits, hw, hd, lt_of_outOfRange ho]⟩
    · exact ⟨_, h, .dest rd _ rfl⟩
  | ntt rd ra => exact ⟨_, exec_ntt s rd ra, .dest rd _ rfl⟩
  | intt rd ra => exact ⟨_, exec_intt s rd ra, .dest rd _ rfl⟩
  | mulntt rd ra rb => exact ⟨_, exec_mulntt s rd ra rb, .dest rd _ rfl⟩
  | add rd ra rb => exact ⟨_, exec_add s rd ra rb, .dest rd _ rfl⟩
  | sub rd ra rb => exact ⟨_, exec_sub s rd ra rb, .dest rd _ rfl⟩
  | brev7 idx =>
    obtain ⟨hi, h⟩ | ⟨hi, h⟩ := execBrev7_cases s idx
    · exact ⟨_, h, .fault _ fun w hw => by simp [causeFits, hw, legalIdx, hi]⟩
    · exact ⟨_, h, .result idx _ rfl hi⟩

/-- No command touches the host's lists (log entry 4). -/
theorem CommandEffect.hostLists {i : Instr} {s t : State} (h : CommandEffect i s t) :
    t.pending = s.pending ∧ t.answers = s.answers := by
  cases h <;> exact ⟨rfl, rfl⟩

/-- In the fault state a word written to CMD is dropped (R205). -/
theorem cmdWrite_dropped {s : State} (w : Word32) (h : s.fault = true) :
    cmdWrite s w = .served (s.answer .ok) := by simp only [cmdWrite, h, if_true]

/-- Outside the fault state a word written to CMD is issued (R31). -/
theorem cmdWrite_issued {s : State} (w : Word32) (h : s.fault = false) :
    cmdWrite s w = .command w s := by simp [cmdWrite, h]

/-- A write to CTRL with bit 0 = 1 resets (R35). -/
theorem ctrlWrite_reset (s : State) {v : Word32} (h : v.getLsbD 0 = true) :
    ctrlWrite s v = .served (s.afterReset.answer .ok) := by simp only [ctrlWrite, h, if_true]

/-- A write to CTRL with bit 0 = 0 does nothing (R35). -/
theorem ctrlWrite_noReset (s : State) {v : Word32} (h : v.getLsbD 0 = false) :
    ctrlWrite s v = .served (s.answer .ok) := by
  simp only [ctrlWrite, h, Bool.false_eq_true, if_false]

/-- What serving the event `e` can do to `s`, from which `e` is already taken off. -/
inductive EventEffect (e : HostEvent) (s : State) : State → Prop
  /-- A write of a word that matches no row, outside the fault state (R96). -/
  | illegal (w : Word32) (r : Reject) (he : e.isTransaction = true)
    (hc : e.command? = some w) (hf : s.fault = false) (hw : decode w = .error r) :
    EventEffect e s ((s.raiseFault .illegalCmd w).answer .ok)
  /-- A write of a command to CMD outside the fault state (R31). -/
  | command (w : Word32) (i : Instr) (t : State) (he : e.isTransaction = true)
    (hc : e.command? = some w) (hf : s.fault = false) (hw : decode w = .ok i)
    (ht : CommandEffect i s t) : EventEffect e s (t.answer .ok)
  /-- A write to CTRL with bit 0 = 1 (R35). -/
  | softReset (he : e.isTransaction = true) (hr : e.isReset = true) :
    EventEffect e s (s.afterReset.answer .ok)
  /-- The reset input (R230). -/
  | hardReset (he : e = .rst) : EventEffect e s s.afterReset
  /-- A coefficient write (R56). -/
  | cellWrite (r : RegNum) (i : Fin 256) (v : Coef) (he : e.isTransaction = true)
    (hw : e.writesCellOf = some r) : EventEffect e s ((s.setCell r i v).answer .ok)
  /-- A byte write (R58). -/
  | byteWrite (k : Fin 384) (v : Byte) (he : e.isTransaction = true)
    (hw : e.writesByte = some k.val) : EventEffect e s ((s.setByte k v).answer .ok)
  /-- A read, a refused access, a word dropped in the fault state, a write to CTRL with bit
  0 = 0. -/
  | answerOnly (a : Response) (he : e.isTransaction = true) : EventEffect e s (s.answer a)

/-- The issue of a word outside the fault state: ILLEGAL_CMD, or the effect of its command. -/
theorem issue_effect {e : HostEvent} {w : Word32} (s : State) (he : e.isTransaction = true)
    (hc : e.command? = some w) (hf : s.fault = false) :
    ∃ t, issue w s = .next t ∧ EventEffect e s t := by
  cases hd : decode w with
  | error r => exact ⟨_, issue_error s hd, .illegal w r he hc hf hd⟩
  | ok i =>
    obtain ⟨u, hu, hi⟩ := exec_effect i s
    exact ⟨_, issue_ok hd hu, .command w i u he hc hf hd hi⟩

/-- A step with an event pending completes, with one effect of that event. -/
theorem step_cons_effect {s : State} {e : HostEvent} {rest : List HostEvent}
    (hp : s.pending = e :: rest) :
    ∃ t, step s = .next t ∧ EventEffect e { s with pending := rest } t := by
  obtain ⟨w, hc, he, hs⟩ | ⟨v, hr, he, hs⟩ | ⟨w, r, i, hw, he, hs⟩ | ⟨w, k, hw, he, hs⟩ |
    ⟨a, he, hs⟩ | ⟨rfl, hs⟩ := serve_cases e { s with pending := rest }
  · obtain hf | hf := Bool.eq_false_or_eq_true s.fault
    · exact ⟨_, step_served hp (hs.trans (cmdWrite_dropped w hf)), .answerOnly .ok he⟩
    · rw [step_command hp (hs.trans (cmdWrite_issued w hf))]
      exact issue_effect _ he hc hf
  · cases hv : v.getLsbD 0 with
    | true =>
      exact ⟨_, step_served hp (hs.trans (ctrlWrite_reset _ hv)), .softReset he (hr.trans hv)⟩
    | false => exact ⟨_, step_served hp (hs.trans (ctrlWrite_noReset _ hv)), .answerOnly .ok he⟩
  · exact ⟨_, step_served hp hs, .cellWrite r i w he hw⟩
  · exact ⟨_, step_served hp hs, .byteWrite k w he hw⟩
  · exact ⟨_, step_served hp hs, .answerOnly a he⟩
  · exact ⟨_, step_served hp hs, .hardReset rfl⟩

/-- The effect of the event that a step served. -/
theorem effect_of_step {s t : State} {e : HostEvent} {rest : List HostEvent}
    (hp : s.pending = e :: rest) (h : step s = .next t) :
    EventEffect e { s with pending := rest } t := by
  obtain ⟨u, hu, he⟩ := step_cons_effect hp
  cases h.symm.trans hu
  exact he

/-- What a step does: nothing when the engine is idle, else one effect of the next event. -/
theorem step_effect {s t : State} (h : step s = .next t) :
    (s.pending = [] ∧ t = s) ∨
      ∃ e rest, s.pending = e :: rest ∧ EventEffect e { s with pending := rest } t := by
  cases hp : s.pending with
  | nil => exact .inl ⟨rfl, Host.Outcome.next.inj (h.symm.trans (step_idle hp))⟩
  | cons e rest => exact .inr ⟨e, rest, rfl, effect_of_step hp h⟩

end Sys2Proof.Machine
end

section
/-!
The statements on the state, its record and its writers (10_state.md).
-/

namespace Sys2Proof.Machine

open Sys2Proof.Claims

/-! ### The fault record -/

/-- A fault whose word explains its cause leaves a coherent record. -/
theorem State.recordInv_raiseFault (s : State) {c : Cause} {w : Word32} (h : causeFits c w) :
    (s.raiseFault c w).recordInv :=
  ⟨fun hf => Bool.noConfusion hf, fun _ => h⟩

theorem State.recordInv_afterReset (s : State) : s.afterReset.recordInv :=
  ⟨fun _ => ⟨rfl, rfl⟩, fun hf => Bool.noConfusion hf⟩

theorem causeFits_illegalCmd {w : Word32} {r : Reject} (h : decode w = .error r) :
    causeFits .illegalCmd w := by
  simp [causeFits, h]

/-- No word explains the cause 0 (R201). -/
theorem not_causeFits_none (w : Word32) : ¬ causeFits .none w := by
  unfold causeFits
  split <;> simp

/-- A command keeps the record or takes a fault that its word explains; by O2 that word is the one
written. -/
theorem CommandEffect.recordInv {w : Word32} {i : Instr} {s t : State} (h : CommandEffect i s t)
    (hw : decode w = .ok i) (hs : s.recordInv) : t.recordInv := by
  cases h with
  | fault c hc =>
    rw [decodedWordIsTheCommandsWord w i hw]
    exact s.recordInv_raiseFault (hc w hw)
  | dest => exact hs
  | bytes => exact hs
  | result => exact hs

theorem EventEffect.recordInv {e : HostEvent} {s t : State} (h : EventEffect e s t)
    (hs : s.recordInv) : t.recordInv := by
  cases h with
  | illegal w r _ _ _ hw => exact s.recordInv_raiseFault (causeFits_illegalCmd hw)
  | command w i u _ _ _ hw hu => exact hu.recordInv hw hs
  | softReset => exact s.recordInv_afterReset
  | hardReset => exact s.recordInv_afterReset
  | cellWrite => exact hs
  | byteWrite => exact hs
  | answerOnly => exact hs

/-- Settles O9, event by event. -/
theorem everyStepKeepsTheFaultRecordCoherent :
    Obligations.EveryStepKeepsTheFaultRecordCoherent := by
  intro s t hs h
  obtain ⟨_, rfl⟩ | ⟨e, rest, _, he⟩ := step_effect h
  · exact hs
  · exact he.recordInv hs

/-- Settles O10: both records are clear. -/
theorem resetRecordIsCoherent : Obligations.ResetRecordIsCoherent :=
  ⟨⟨fun _ => ⟨rfl, rfl⟩, fun hf => Bool.noConfusion hf⟩, State.recordInv_afterReset⟩

/-! ### What the CSRs show -/

/-- The five values of STATUS (R201): the code of the cause with the FAULT bit, or zero. -/
theorem statusWord_of_fault (s : State) (c : Cause) (hf : s.fault = true) (hc : s.cause = c) :
    s.statusWord = 0#24 ++ c.code ++ 1#4 := by
  unfold State.statusWord
  rw [hf, hc]
  cases c <;> rfl

theorem statusWord_of_noFault (s : State) (c : Cause) (hf : s.fault = false) (hc : s.cause = c) :
    s.statusWord = 0#24 ++ c.code ++ 0#4 := by
  unfold State.statusWord
  rw [hf, hc]
  cases c <;> rfl

theorem resultWord_toNat (s : State) : s.resultWord.toNat = s.result.toNat := by
  have h : s.resultWord = s.result.setWidth 32 := (BitVec.setWidth_eq_append (by decide)).symm
  have := s.result.isLt
  rw [h, BitVec.toNat_setWidth, Nat.mod_eq_of_lt (by omega)]

/-- With a coherent record STATUS has one of its five values (R201). -/
theorem State.recordInv.statusWord_mem {s : State} (h : s.recordInv) :
    s.statusWord ∈ [0x00#32, 0x11#32, 0x21#32, 0x31#32, 0x41#32] := by
  obtain ⟨hn, hy⟩ := h
  obtain hf | hf := Bool.eq_false_or_eq_true s.fault
  · have hfit := hy hf
    cases hc : s.cause with
    | none => rw [hc] at hfit; exact absurd hfit (not_causeFits_none s.fcmd)
    | illegalCmd => rw [statusWord_of_fault s _ hf hc]; decide
    | illegalD => rw [statusWord_of_fault s _ hf hc]; decide
    | invalidArg => rw [statusWord_of_fault s _ hf hc]; decide
    | operandRange => rw [statusWord_of_fault s _ hf hc]; decide
  · rw [statusWord_of_noFault s .none hf (hn hf).1]; decide

/-- Settles O11: STATUS by its fault bit and its cause. -/
theorem csrWordsShowTheirFields : Obligations.CsrWordsShowTheirFields := by
  intro s
  refine ⟨by decide, ?_, rfl, resultWord_toNat s, State.recordInv.statusWord_mem⟩
  obtain hf | hf := Bool.eq_false_or_eq_true s.fault
  · cases hc : s.cause <;> rw [statusWord_of_fault s _ hf hc, hf] <;> rfl
  · cases hc : s.cause <;> rw [statusWord_of_noFault s _ hf hc, hf] <;> rfl

/-- A clear record reads as zero. -/
theorem csrWords_eq_zero {s : State} (hf : s.fault = false) (hc : s.cause = .none)
    (hw : s.fcmd = 0#32) (hr : s.result = 0#7) :
    s.statusWord = 0#32 ∧ s.fcmdWord = 0#32 ∧ s.resultWord = 0#32 := by
  refine ⟨statusWord_of_noFault s .none hf hc, hw, ?_⟩
  rw [State.resultWord, hr]
  rfl

/-- Settles O14: the power-on record is clear. -/
theorem powerOnStateReadsAsR39Says : Obligations.PowerOnStateReadsAsR39Says := by
  obtain ⟨hs, hf, hr⟩ := csrWords_eq_zero (s := State.reset) State.reset_fault
    State.reset_cause State.reset_fcmd State.reset_result
  exact ⟨hs, hf, hr, rfl, rfl, rfl, rfl⟩

/-! ### Writes to CMD and CTRL -/

/-- A write of `w` to CMD by either way of writing it (R59, R64) is the command word `w`. -/
theorem serve_cmdWrite {e : HostEvent} {w : Word32}
    (h : e = cmdEvent w ∨ e = .busWrite 0x1204#13 (.four w)) (s : State) :
    serve e s = cmdWrite s w := by
  obtain rfl | rfl := h
  · rfl
  · have hb : busTarget 0x1204#13 = some (.csr, 0x04) := by decide
    rw [serve, hb]
    rfl

/-- Settles O6: either write issues the word, and the word decodes. -/
theorem stepRunsTheDecodedCommand : Obligations.StepRunsTheDecodedCommand := by
  intro s t w i rest hp hf hd ht
  obtain ⟨e, he, hp⟩ : ∃ e, (e = cmdEvent w ∨ e = .busWrite 0x1204#13 (.four w)) ∧
      s.pending = e :: rest := by
    obtain h | h := hp
    · exact ⟨_, .inl rfl, h⟩
    · exact ⟨_, .inr rfl, h⟩
  have hs := (serve_cmdWrite he { s with pending := rest }).trans (cmdWrite_issued w hf)
  exact (step_command hp hs).trans (issue_ok hd ht)

/-- A write to offset 0x14 of CSR is a write to CTRL (R29, R59). -/
theorem serve_ctrlWrite (s : State) (v : Word32) :
    serve (.write .csr 0x14 (.four v)) s = ctrlWrite s v := rfl

/-- CTRL is write-only: a read of any size is refused (R29, R51). -/
theorem portRead_ctrl (s : State) (n : Size) : portRead s .csr 0x14 n = .accessError := by
  cases n <;> rfl

/-- Settles O15: bit 0 decides a write, and a read is refused. -/
theorem ctrlWriteResetsOnBitZero : Obligations.CtrlWriteResetsOnBitZero := by
  intro s rest
  refine ⟨fun v hp => ⟨fun hv => ?_, fun hv => ?_⟩, fun n hp => ?_⟩
  · exact step_served hp ((serve_ctrlWrite _ v).trans (ctrlWrite_noReset _ hv))
  · obtain ⟨hs, hf, hr⟩ := csrWords_eq_zero
      (s := ({ s with pending := rest }.afterReset).answer .ok) rfl rfl rfl rfl
    have hserve := (serve_ctrlWrite _ v).trans (ctrlWrite_reset { s with pending := rest } hv)
    exact ⟨_, step_served hp hserve, hs, hf, hr, rfl, rfl⟩
  · have hserve : serve (.read .csr 0x14 n) { s with pending := rest } =
        .served (answered .accessError rest s) := by
      rw [serve, portRead_ctrl]
      rfl
    exact step_served hp hserve

/-! ### Who writes what -/

/-- The host's lists after an event: the answers have grown by one for a transaction and not at all
for `rst` (R27, R50). -/
def servedOnce (e : HostEvent) (s t : State) : Prop :=
  t.pending = s.pending ∧
    (e.isTransaction = true → ∃ a, t.answers = a :: s.answers) ∧
    (e.isTransaction = false → t.answers = s.answers)

/-- A transaction served without touching the host's lists, then answered. -/
theorem servedOnce_answer {e : HostEvent} {s u : State} (a : Response) (he : e.isTransaction = true)
    (hp : u.pending = s.pending) (ha : u.answers = s.answers) : servedOnce e s (u.answer a) :=
  ⟨hp, fun _ => ⟨a, congrArg (a :: ·) ha⟩, fun hn => by simp [he] at hn⟩

theorem EventEffect.servedOnce {e : HostEvent} {s t : State} (h : EventEffect e s t) :
    servedOnce e s t := by
  cases h with
  | illegal w r he => exact servedOnce_answer .ok he rfl rfl
  | command w i u he _ _ _ hu =>
    obtain ⟨hp, ha⟩ := hu.hostLists
    exact servedOnce_answer .ok he hp ha
  | softReset he => exact servedOnce_answer .ok he rfl rfl
  | cellWrite r i v he => exact servedOnce_answer .ok he rfl rfl
  | byteWrite k v he => exact servedOnce_answer .ok he rfl rfl
  | answerOnly a he => exact servedOnce_answer a he rfl rfl
  | hardReset he =>
    subst he
    exact ⟨rfl, fun hn => Bool.noConfusion hn, fun _ => rfl⟩

/-- Settles O25, event by event. -/
theorem everyStepServesOneEvent : Obligations.EveryStepServesOneEvent :=
  fun _ _ _ _ hp h => (effect_of_step hp h).servedOnce

/-- A command changes only the register it names as destination (R23). -/
theorem CommandEffect.reg_of_ne_dest {i : Instr} {s t : State} (h : CommandEffect i s t)
    {r : RegNum} (hr : destOf i ≠ some r) : t.reg r = s.reg r := by
  cases h with
  | fault => rfl
  | dest rd vs hd =>
    have hne : r ≠ rd := fun e => hr (by rw [hd, e])
    exact s.setReg_reg_other _ hne
  | bytes => rfl
  | result => rfl

/-- A register that an event has changed was reset, or written by the event or by its command. -/
theorem EventEffect.writer_of_reg_ne {e : HostEvent} {s t : State} (h : EventEffect e s t)
    {r : RegNum} (hne : t.reg r ≠ s.reg r) :
    e.isReset = true ∨ e.writesCellOf = some r ∨
      ∃ w i, e.command? = some w ∧ s.fault = false ∧ decode w = .ok i ∧ destOf i = some r := by
  cases h with
  | illegal => exact absurd rfl hne
  | command w i u _ hc hf hw hu =>
    by_cases hd : destOf i = some r
    · exact .inr (.inr ⟨w, i, hc, hf, hw, hd⟩)
    · exact absurd (hu.reg_of_ne_dest hd) hne
  | softReset _ hr => exact .inl hr
  | hardReset he => exact .inl (he ▸ rfl)
  | cellWrite r' i v _ hw =>
    by_cases hr : r = r'
    · exact .inr (.inl (hr ▸ hw))
    · exact absurd (s.setCell_reg_other i v hr) hne
  | byteWrite => exact absurd rfl hne
  | answerOnly => exact absurd rfl hne

/-- Settles O27: a changed cell is in a changed register, and that has a writer. -/
theorem registerChangesOnlyByItsWriters : Obligations.RegisterChangesOnlyByItsWriters := by
  intro s t r k h _ hne
  obtain ⟨_, rfl⟩ | ⟨e, rest, hp, he⟩ := step_effect h
  · exact absurd rfl hne
  · have hreg : t.reg r ≠ s.reg r := fun hr => hne (by rw [hr])
    exact ⟨e, rest, hp, he.writer_of_reg_ne hreg⟩

/-- A byte that an event has changed was reset, written by the event, or reached by an ENCODE. -/
theorem EventEffect.writer_of_byte_ne {e : HostEvent} {s t : State} (h : EventEffect e s t)
    {k : Nat} (hk : k < 384) (hne : byte t k ≠ byte s k) :
    e.isReset = true ∨ e.writesByte = some k ∨
      ∃ w ra d, e.command? = some w ∧ s.fault = false ∧ decode w = .ok (.encode ra d) ∧
        k < 32 * d.toNat := by
  cases h with
  | illegal => exact absurd rfl hne
  | command w i u _ hc hf hw hu =>
    cases hu with
    | fault => exact absurd rfl hne
    | dest => exact absurd rfl hne
    | bytes ra d b hi hb =>
      have hreach : k < 32 * d.toNat :=
        Nat.lt_of_not_le fun hle => hne (byte_writeBuf_above s hk (hb ▸ hle))
      exact .inr (.inr ⟨w, ra, d, hc, hf, hi ▸ hw, hreach⟩)
    | result => exact absurd rfl hne
  | softReset _ hr => exact .inl hr
  | hardReset he => exact .inl (he ▸ rfl)
  | cellWrite => exact absurd rfl hne
  | byteWrite j v _ hw =>
    by_cases hj : k = j.val
    · exact .inr (.inl (hj ▸ hw))
    · exact absurd (byte_setByte_other s v hk hj) hne
  | answerOnly => exact absurd rfl hne

/-- Settles O28, by the writers of a byte. -/
theorem byteChangesOnlyByItsWriters : Obligations.ByteChangesOnlyByItsWriters := by
  intro s t k h hk hne
  obtain ⟨_, rfl⟩ | ⟨e, rest, hp, he⟩ := step_effect h
  · exact absurd rfl hne
  · exact ⟨e, rest, hp, he.writer_of_byte_ne hk hne⟩

/-- When an event has changed RESULT it was a reset or a BREV7 that did not fault. -/
theorem EventEffect.writer_of_result_ne {e : HostEvent} {s t : State} (h : EventEffect e s t)
    (hne : t.result ≠ s.result) :
    e.isReset = true ∨
      ∃ w idx, e.command? = some w ∧ s.fault = false ∧ decode w = .ok (.brev7 idx) ∧
        idx.toNat ≤ 127 ∧ t.fault = false := by
  cases h with
  | illegal => exact absurd rfl hne
  | command w i u _ hc hf hw hu =>
    cases hu with
    | fault => exact absurd rfl hne
    | dest => exact absurd rfl hne
    | bytes => exact absurd rfl hne
    | result idx v hi hidx => exact .inr ⟨w, idx, hc, hf, hi ▸ hw, hidx, hf⟩
  | softReset _ hr => exact .inl hr
  | hardReset he => exact .inl (he ▸ rfl)
  | cellWrite => exact absurd rfl hne
  | byteWrite => exact absurd rfl hne
  | answerOnly => exact absurd rfl hne

/-- Settles O29, by the writers of RESULT. -/
theorem resultChangesOnlyByBrev7OrReset : Obligations.ResultChangesOnlyByBrev7OrReset := by
  intro s t h hne
  obtain ⟨_, rfl⟩ | ⟨e, rest, hp, he⟩ := step_effect h
  · exact absurd rfl hne
  · exact ⟨e, rest, hp, he.writer_of_result_ne hne⟩

end Sys2Proof.Machine
end

section
/-!
The five ring commands write field values only (R22): every entry of what they compute is a `modq`.
-/

namespace Sys2Proof.Machine

open Sys2Proof.Claims

/-- Every integer of the sequence is a field value. -/
def reduced (vs : List Int) : Prop := ∀ v ∈ vs, modq v = v

theorem reduced_map {g : Int → Int} (hg : ∀ v, modq (g v) = g v) (vs : List Int) :
    reduced (vs.map g) := by
  intro x hx
  obtain ⟨v, _, rfl⟩ := List.mem_map.mp hx
  exact hg v

theorem reduced_zipWith {g : Int → Int → Int} (hg : ∀ u v, modq (g u v) = g u v)
    (as bs : List Int) :
    reduced (List.zipWith g as bs) := by
  rw [← List.map_uncurry_zip_eq_zipWith]
  intro x hx
  obtain ⟨v, _, rfl⟩ := List.mem_map.mp hx
  exact hg v.1 v.2

theorem reduced_append {as bs : List Int} (ha : reduced as) (hb : reduced bs) :
    reduced (as ++ bs) :=
  fun x hx => (List.mem_append.mp hx).elim (ha x) (hb x)

/-- An entry of a sequence of field values is one, also the zero read past its end. -/
theorem modq_entry_of_reduced {vs : List Int} (h : reduced vs) (k : Nat) :
    modq (entry vs k) = entry vs k := by
  obtain hk | hk := Nat.lt_or_ge k vs.length
  · have he : entry vs k = vs[k] := by simp [entry, hk]
    rw [he]
    exact h _ (List.getElem_mem hk)
  · have he : entry vs k = 0 := by simp [entry, hk]
    rw [he]
    rfl

/-- A register written with field values holds field values. -/
theorem isField_ofInts {vs : List Int} (h : reduced vs) : isField (ofInts vs) := by
  intro k hk
  have hcell := ofInt_modq_toNat (entry vs k)
  have hlt := modq_lt (entry vs k)
  rw [modq_entry_of_reduced h k] at hcell hlt
  rw [cell_eq_getElem _ hk, ofInts_getElem _ _ hk]
  omega

/-- A command that writes a sequence of field values to its destination. -/
theorem writesDest_isField {i : Instr} {rd : RegNum} {s : State} {vs : List Int}
    (h : exec i s = .next (s.setDest rd vs)) (hv : reduced vs) : writesDest i rd s isField :=
  ⟨_, h, by rw [s.setDest_reg_same]; exact isField_ofInts hv, onlyDest_setDest s rd vs⟩

/-- A round whose butterflies reduce both new values leaves nothing unreduced: its groups cover the
whole sequence. -/
theorem reduced_lanesRound {g h : Int → Int → Int → Int} (hg : ∀ z u v, modq (g z u v) = g z u v)
    (hh : ∀ z u v, modq (h z u v) = h z u v) (next : Nat → Nat) (len groups i : Nat) (f : List Int)
    (hf : f.length = groups * (2 * len)) : reduced (lanesRound g h next len groups i f) := by
  induction groups generalizing i f with
  | zero =>
    rw [List.length_eq_zero_iff.mp (by omega : f.length = 0)]
    exact fun x hx => nomatch hx
  | succ groups ih =>
    have hrest : (f.drop (2 * len)).length = groups * (2 * len) := by
      rw [List.length_drop, hf, Nat.succ_mul]; omega
    exact reduced_append (reduced_append (reduced_zipWith (hg _) _ _) (reduced_zipWith (hh _) _ _))
      (ih (next i) _ hrest)

/-- Rounds that cover all 256 values keep their number. -/
theorem foldl_lanesRound_length (g h : Int → Int → Int → Int) (next start : Nat → Nat)
    (lens : List Nat) (hl : ∀ len ∈ lens, 128 / len * (2 * len) = 256) (f : List Int)
    (hf : f.length = 256) :
    (lens.foldl (fun f len => lanesRound g h next len (128 / len) (start len) f) f).length
      = 256 := by
  induction lens generalizing f with
  | nil => exact hf
  | cons len lens ih =>
    exact ih (fun l hm => hl l (List.mem_cons_of_mem _ hm)) _
      (lanesRound_256 _ _ _ _ _ _ _ hf (hl len List.mem_cons_self))

/-- The last round of NTT reduces every value (R161). -/
theorem reduced_nttNetwork (f : List Int) (hf : f.length = 256) : reduced (nttNetwork f) := by
  have hlast := foldl_lanesRound_length fwdLo fwdHi (· + 1) (128 / ·) [128, 64, 32, 16, 8, 4]
    (by decide) f hf
  rw [nttNetwork_eq_lanes f hf, nttLanes,
    show [128, 64, 32, 16, 8, 4, 2] = [128, 64, 32, 16, 8, 4] ++ [2] from rfl,
    List.foldl_append, List.foldl_cons, List.foldl_nil]
  exact reduced_lanesRound (g := fwdLo) (h := fwdHi) (fun _ _ _ => modq_modq _)
    (fun _ _ _ => modq_modq _) (· + 1) 2 (128 / 2) (128 / 2) _ hlast

/-- INTT ends with a reduced product by 3303 (R163). -/
theorem reduced_inttNetwork (f : List Int) : reduced (inttNetwork f) :=
  reduced_map (fun _ => modq_modq _) _

/-- Both values of a block product are reduced (R170). -/
theorem reduced_mulBlocks (a b : List Int) : reduced (mulBlocks a b) := by
  intro x hx
  obtain ⟨i, _, hx⟩ := List.mem_flatMap.mp hx
  obtain rfl | rfl := by simpa [basemul] using hx
  · exact modq_modq _
  · exact modq_modq _

/-- Settles O41, command by command. -/
theorem ringCommandsWriteFieldValuesOnly : Obligations.RingCommandsWriteFieldValuesOnly := by
  intro rd ra rb s i hi
  simp only [List.mem_cons, List.not_mem_nil, or_false] at hi
  obtain rfl | rfl | rfl | rfl | rfl := hi
  · exact writesDest_isField (exec_ntt s rd ra) (reduced_nttNetwork _ (s.source_length ra))
  · exact writesDest_isField (exec_intt s rd ra) (reduced_inttNetwork _)
  · exact writesDest_isField (exec_mulntt s rd ra rb) (reduced_mulBlocks _ _)
  · exact writesDest_isField (exec_add s rd ra rb) (reduced_zipWith (fun _ _ => modq_modq _) _ _)
  · exact writesDest_isField (exec_sub s rd ra rb) (reduced_zipWith (fun _ _ => modq_modq _) _ _)

end Sys2Proof.Machine
end

section
/-!
SUPPORT. The host port, transaction by transaction: the location behind an offset (R37, R51), the
space behind a bus offset (R64), and the state after one read or one write (R55 to R59).
-/

namespace Sys2Proof.Machine

open Sys2Proof.Claims

/-! ### Locations -/

/-- The offset of R[r][i] leads to R[r][i] (R37). -/
theorem coefTarget_location (r : RegNum) (i : Fin 256) :
    coefTarget (r.val * 512 + i.val * 2) = some (r, i) := by
  have hr : Fin.ofNat 8 ((r.val * 512 + i.val * 2) / 512) = r := by
    ext; simp only [Fin.val_ofNat]; omega
  have hi : Fin.ofNat 256 ((r.val * 512 + i.val * 2) % 512 / 2) = i := by
    ext; simp only [Fin.val_ofNat]; omega
  rw [coefTarget, if_pos (by omega), hr, hi]

/-- The offset k of BUF leads to BUF[k] (R37). -/
theorem bufTarget_location (k : Fin 384) : bufTarget k.val = some k := by
  rw [bufTarget, if_pos k.isLt, Fin.ofNat_val_eq_self]

theorem coefTarget_eq_none {addr : Nat} (h : ¬ (addr % 2 = 0 ∧ addr ≤ 4094)) :
    coefTarget addr = none :=
  if_neg (by omega)

theorem coefTarget_eq_some {addr : Nat} (h : addr % 2 = 0 ∧ addr ≤ 4094) :
    ∃ r i, coefTarget addr = some (r, i) :=
  ⟨_, _, if_pos (by omega)⟩

theorem bufTarget_eq_none {addr : Nat} (h : ¬ addr ≤ 383) : bufTarget addr = none :=
  if_neg (by omega)

theorem bufTarget_eq_some {addr : Nat} (h : addr ≤ 383) : ∃ k, bufTarget addr = some k :=
  ⟨_, if_pos (by omega)⟩

/-! ### Reads -/

/-- A read only gives its answer; it does not see the host's list. -/
theorem step_read {s : State} {sp : Space} {addr : Nat} {n : Size} {rest : List HostEvent}
    (hp : s.pending = .read sp addr n :: rest) :
    step s = .next (answered (portRead s sp addr n) rest s) :=
  step_served hp rfl

/-- A coefficient read at the offset of R[r][i] (R55). -/
theorem step_coefRead {s : State} {r : RegNum} {i : Fin 256} {rest : List HostEvent}
    (hp : s.pending = .read .coef (r.val * 512 + i.val * 2) .two :: rest) :
    step s = .next (answered (.data (.two ((s.reg r)[i].setWidth 16))) rest s) := by
  rw [step_read hp, portRead, coefRead, coefTarget_location]

/-- A byte read at the offset of BUF[k] (R57). -/
theorem step_byteRead {s : State} {k : Fin 384} {rest : List HostEvent}
    (hp : s.pending = .read .buf k.val .one :: rest) :
    step s = .next (answered (.data (.one s.buf[k])) rest s) := by
  rw [step_read hp, portRead, bufRead, bufTarget_location]

/-- Zero extension keeps the value of a cell (R55). -/
theorem setWidth_cell_toNat (v : RingReg) (i : Fin 256) :
    (v[i].setWidth 16).toNat = cell v i := by
  rw [cell_eq_getElem v i.isLt]
  exact BitVec.toNat_setWidth_of_le (by decide)

/-! ### Writes -/

/-- A coefficient write at the offset of R[r][i] (R56). -/
theorem step_coefWrite {s : State} {r : RegNum} {i : Fin 256} {v : BitVec 16}
    {rest : List HostEvent}
    (hp : s.pending = .write .coef (r.val * 512 + i.val * 2) (.two v) :: rest) :
    step s = .next ((answered .ok rest s).setCell r i (v.setWidth 12)) := by
  refine step_served hp ?_
  rw [serve, portWrite, coefWrite, coefTarget_location]
  rfl

/-- A byte write at the offset of BUF[k] (R58). -/
theorem step_byteWrite {s : State} {k : Fin 384} {v : Byte} {rest : List HostEvent}
    (hp : s.pending = .write .buf k.val (.one v) :: rest) :
    step s = .next ((answered .ok rest s).setByte k v) := by
  refine step_served hp ?_
  rw [serve, portWrite, bufWrite, bufTarget_location]
  rfl

/-- The value of every cell after one cell is written. -/
theorem cell_setCell (s : State) (r r' : RegNum) (i i' : Fin 256) (v : Coef) :
    cell ((s.setCell r i v).reg r') i' =
      if r' = r ∧ i' = i then v.toNat else cell (s.reg r') i' := by
  have h := congrArg BitVec.toNat (s.setCell_reg r r' i i' v)
  rw [cell_eq_getElem _ i'.isLt, cell_eq_getElem _ i'.isLt]
  rw [apply_ite BitVec.toNat] at h
  exact h

/-- A cell write stays inside its register (R56). -/
theorem onlyDest_setCell (s : State) (r : RegNum) (i : Fin 256) (v : Coef) :
    onlyDest r s (s.setCell r i v) :=
  ⟨fun r' hr _ _ => by rw [s.setCell_reg_other i v hr], fun _ _ _ => rfl, ⟨rfl, rfl, rfl⟩, rfl,
    rfl, rfl, rfl⟩

/-- The written byte holds its new value (R58). -/
theorem byte_setByte_same (s : State) (k : Fin 384) (v : Byte) :
    byte (s.setByte k v) k = v.toNat := by
  have h := s.setByte_buf_getElem k k v
  rw [if_pos rfl] at h
  rw [byte_eq_getElem _ k.isLt]
  exact congrArg BitVec.toNat h

/-! ### Admitted and refused transactions (R51, R52) -/

theorem portRead_of_not_admitted (s : State) {sp : Space} {addr : Nat} {n : Size}
    (h : ¬ (HostEvent.read sp addr n).admitted) : portRead s sp addr n = .accessError := by
  cases sp <;> cases n
  case coef.two => rw [portRead, coefRead, coefTarget_eq_none h]
  case buf.one => rw [portRead, bufRead, bufTarget_eq_none h]
  case csr.four =>
    obtain ⟨h0, h8, hC, h10⟩ : addr ≠ 0x00 ∧ addr ≠ 0x08 ∧ addr ≠ 0x0C ∧ addr ≠ 0x10 := by
      simpa only [HostEvent.admitted, not_or] using h
    rw [portRead, csrRead, if_neg h0, if_neg h8, if_neg hC, if_neg h10]
  all_goals rfl

theorem portRead_of_admitted (s : State) {sp : Space} {addr : Nat} {n : Size}
    (h : (HostEvent.read sp addr n).admitted) : ∃ v, portRead s sp addr n = .data v := by
  cases sp <;> cases n
  case coef.two =>
    obtain ⟨r, i, ht⟩ := coefTarget_eq_some h
    exact ⟨_, by rw [portRead, coefRead, ht]⟩
  case buf.one =>
    obtain ⟨k, ht⟩ := bufTarget_eq_some h
    exact ⟨_, by rw [portRead, bufRead, ht]⟩
  case csr.four => obtain rfl | rfl | rfl | rfl := h <;> exact ⟨_, rfl⟩
  all_goals exact h.elim

theorem portWrite_of_not_admitted (s : State) {sp : Space} {addr : Nat} {v : Payload}
    (h : ¬ (HostEvent.write sp addr v).admitted) :
    portWrite s sp addr v = .served (s.answer .accessError) := by
  cases sp <;> cases v
  case coef.two v => rw [portWrite, coefWrite, coefTarget_eq_none h, refuseAccess]
  case buf.one v => rw [portWrite, bufWrite, bufTarget_eq_none h, refuseAccess]
  case csr.four v =>
    obtain ⟨h4, h14⟩ : addr ≠ 0x04 ∧ addr ≠ 0x14 := by
      simpa only [HostEvent.admitted, not_or] using h
    rw [portWrite, csrWrite, if_neg h4, if_neg h14, refuseAccess]
  all_goals rfl

/-- The event has been served with the answer OK. -/
def servedOk (rest : List HostEvent) (s t : State) : Prop :=
  t.pending = rest ∧ t.answers = .ok :: s.answers

/-- Whatever word is issued, its write is answered OK (R59, R204). -/
theorem issue_servedOk (w : Word32) (s : State) :
    ∃ t, issue w s = .next t ∧ servedOk s.pending s t := by
  cases hd : decode w with
  | error r => exact ⟨_, issue_error s hd, rfl, rfl⟩
  | ok i =>
    obtain ⟨u, hu, he⟩ := exec_effect i s
    obtain ⟨hp, ha⟩ := he.hostLists
    exact ⟨_, issue_ok hd hu, hp, congrArg (Response.ok :: ·) ha⟩

/-- A write to CMD is answered OK, dropped or issued (R59, R205). -/
theorem step_cmdEvent_servedOk {s : State} {w : Word32} {rest : List HostEvent}
    (hp : s.pending = cmdEvent w :: rest) : ∃ t, step s = .next t ∧ servedOk rest s t := by
  have hs := serve_cmdWrite (.inl rfl : cmdEvent w = cmdEvent w ∨ _) { s with pending := rest }
  obtain hf | hf := Bool.eq_false_or_eq_true s.fault
  · exact ⟨_, step_served hp (hs.trans (cmdWrite_dropped w hf)), rfl, rfl⟩
  · rw [step_command hp (hs.trans (cmdWrite_issued w hf))]
    exact issue_servedOk w _

/-- A write to CTRL is answered OK, reset or not (R59). -/
theorem step_ctrl_servedOk {s : State} {v : Word32} {rest : List HostEvent}
    (hp : s.pending = .write .csr 0x14 (.four v) :: rest) :
    ∃ t, step s = .next t ∧ servedOk rest s t := by
  have hs := serve_ctrlWrite { s with pending := rest } v
  cases hv : v.getLsbD 0 with
  | true => exact ⟨_, step_served hp (hs.trans (ctrlWrite_reset _ hv)), rfl, rfl⟩
  | false => exact ⟨_, step_served hp (hs.trans (ctrlWrite_noReset _ hv)), rfl, rfl⟩

theorem step_write_of_admitted {s : State} {sp : Space} {addr : Nat} {v : Payload}
    {rest : List HostEvent} (hp : s.pending = .write sp addr v :: rest)
    (h : (HostEvent.write sp addr v).admitted) : ∃ t, step s = .next t ∧ servedOk rest s t := by
  cases sp <;> cases v
  case coef.two v =>
    obtain ⟨r, i, ht⟩ := coefTarget_eq_some h
    exact ⟨_, step_served hp (by rw [serve, portWrite, coefWrite, ht]), rfl, rfl⟩
  case buf.one v =>
    obtain ⟨k, ht⟩ := bufTarget_eq_some h
    exact ⟨_, step_served hp (by rw [serve, portWrite, bufWrite, ht]), rfl, rfl⟩
  case csr.four v =>
    obtain rfl | rfl := h
    · exact step_cmdEvent_servedOk hp
    · exact step_ctrl_servedOk hp
  all_goals exact h.elim

/-! ### The bus window (R64) -/

theorem busTarget_eq_some {off : BitVec 13} {sp : Space} {addr : Nat}
    (h : (sp = .coef ∧ addr < 0x1000 ∧ off.toNat = addr) ∨
      (sp = .buf ∧ addr < 0x180 ∧ off.toNat = 0x1000 + addr) ∨
      (sp = .csr ∧ addr < 0x18 ∧ off.toNat = 0x1200 + addr)) :
    busTarget off = some (sp, addr) := by
  obtain ⟨rfl, hlt, ho⟩ | ⟨rfl, hlt, ho⟩ | ⟨rfl, hlt, ho⟩ := h
  · simp only [busTarget, ho, if_pos hlt]
  · rw [busTarget, if_neg (by omega), if_pos (by omega), ho, Nat.add_sub_cancel_left]
  · rw [busTarget, if_neg (by omega), if_neg (by omega), if_neg (by omega), if_pos (by omega), ho,
      Nat.add_sub_cancel_left]

theorem busTarget_eq_none {off : BitVec 13}
    (h : (0x1180 ≤ off.toNat ∧ off.toNat < 0x1200) ∨ 0x1218 ≤ off.toNat) :
    busTarget off = none := by
  obtain ⟨hlo, hhi⟩ | hlo := h
  · rw [busTarget, if_neg (by omega), if_neg (by omega), if_pos hhi]
  · rw [busTarget, if_neg (by omega), if_neg (by omega), if_neg (by omega), if_neg (by omega)]

/-- The engine is idle only with no event pending (R216). -/
theorem serve_ne_idle (e : HostEvent) (s : State) : serve e s ≠ .idle := by
  obtain ⟨_, _, _, hs⟩ | ⟨_, _, _, hs⟩ | ⟨_, _, _, _, _, hs⟩ | ⟨_, _, _, _, hs⟩ | ⟨_, _, hs⟩ |
    ⟨_, hs⟩ := serve_cases e s
  · rw [hs, cmdWrite]; split <;> exact Request.noConfusion
  · rw [hs, ctrlWrite]; split <;> exact Request.noConfusion
  all_goals rw [hs]; exact Request.noConfusion

/-- Events that are served alike make the same step. -/
theorem step_eq_of_serve_eq {s s' : State} {e e' : HostEvent} {rest : List HostEvent}
    (hp : s.pending = e :: rest) (hp' : s'.pending = e' :: rest)
    (h : serve e { s with pending := rest } = serve e' { s' with pending := rest }) :
    step s = step s' := by
  cases hs : serve e' { s' with pending := rest } with
  | idle => exact absurd hs (serve_ne_idle e' _)
  | served t => rw [step_served hp (h.trans hs), step_served hp' hs]
  | command w t => rw [step_command hp (h.trans hs), step_command hp' hs]

theorem serve_busRead {off : BitVec 13} {sp : Space} {addr : Nat}
    (h : busTarget off = some (sp, addr)) (n : Size) (s : State) :
    serve (.busRead off n) s = serve (.read sp addr n) s := by
  simp only [serve, h]

theorem serve_busWrite {off : BitVec 13} {sp : Space} {addr : Nat}
    (h : busTarget off = some (sp, addr)) (v : Payload) (s : State) :
    serve (.busWrite off v) s = serve (.write sp addr v) s := by
  simp only [serve, h]

theorem serve_busRead_gap {off : BitVec 13} (h : busTarget off = none) (n : Size) (s : State) :
    serve (.busRead off n) s = .served (s.answer .accessError) := by
  rw [serve, h, refuseAccess]

theorem serve_busWrite_gap {off : BitVec 13} (h : busTarget off = none) (v : Payload)
    (s : State) : serve (.busWrite off v) s = .served (s.answer .accessError) := by
  rw [serve, h, refuseAccess]

/-- The window is 8192 bytes from BASE, and 13 bits hold every distance in it. -/
theorem windowOffset_eq_some_iff (base a : Nat) (off : BitVec 13) :
    windowOffset base a = some off ↔ base ≤ a ∧ a < base + 8192 ∧ base + off.toNat = a := by
  unfold windowOffset Config.windowSize
  have hoff := off.isLt
  split
  · next hin =>
    rw [Option.some.injEq, ← BitVec.toNat_inj, BitVec.toNat_ofNat]
    omega
  · next hout => simp only [reduceCtorEq, false_iff]; omega

end Sys2Proof.Machine
end

section
/-!
The statements on the host port (20_memory.md).
-/

namespace Sys2Proof.Machine

open Sys2Proof.Claims

/-- Settles O17, by the one cell that a coefficient access touches. -/
theorem coefficientAccessReadsAndWritesOneCell :
    Obligations.CoefficientAccessReadsAndWritesOneCell := by
  intro s r i rest
  refine ⟨fun hp => ?_, fun v hp => ⟨_, step_coefWrite hp, onlyDest_setCell _ r i _, ?_, ?_⟩⟩
  · exact ⟨_, step_coefRead hp, setWidth_cell_toNat (s.reg r) i⟩
  · rw [cell_setCell, if_pos ⟨rfl, rfl⟩]
    exact BitVec.toNat_setWidth 12 v
  · intro k hk hne
    have hother : ¬ (r = r ∧ (⟨k, hk⟩ : Fin 256) = i) := fun h => hne (congrArg Fin.val h.2)
    have hcell := cell_setCell (answered .ok rest s) r r i ⟨k, hk⟩ (v.setWidth 12)
    rwa [if_neg hother] at hcell

/-- Settles O18, by the one byte that a byte access touches. -/
theorem byteAccessReadsAndWritesOneByte : Obligations.ByteAccessReadsAndWritesOneByte := by
  intro s k rest
  refine ⟨fun hp => ?_, fun v hp => ?_⟩
  · exact ⟨_, step_byteRead hp, (byte_eq_getElem s k.isLt).symm⟩
  · exact ⟨_, step_byteWrite hp, fun _ _ _ => rfl, ⟨rfl, rfl, rfl⟩, rfl, ⟨rfl, rfl, rfl⟩,
      byte_setByte_same _ k v, fun _ hk' hne => byte_setByte_other (answered .ok rest s) v hk' hne⟩

/-- Settles O19, register by register. -/
theorem csrReadReturnsItsRegister : Obligations.CsrReadReturnsItsRegister := by
  intro s addr rest hp
  refine ⟨?_, ?_, ?_, ?_⟩
  all_goals
    rintro rfl
    exact step_read hp

/-- Settles O20: the port follows the table of R51 for reads and for writes. -/
theorem accessErrorExactlyOutsideTheTable : Obligations.AccessErrorExactlyOutsideTheTable := by
  intro s sp addr rest
  refine ⟨fun n hp => ⟨fun hn => ?_, fun ha => ?_⟩,
    fun v hp => ⟨fun hn => ?_, step_write_of_admitted hp⟩⟩
  · rw [step_read hp, portRead_of_not_admitted s hn]
  · obtain ⟨v, hv⟩ := portRead_of_admitted s ha
    exact ⟨v, by rw [step_read hp, hv]⟩
  · exact step_served hp (portWrite_of_not_admitted _ hn)

/-- Settles O21: the three spaces, the two gaps, and the offset of an address. -/
theorem busWindowLiesAsR64Says : Obligations.BusWindowLiesAsR64Says := by
  refine ⟨fun s off rest sp addr h => ?_, fun s off rest h => ?_, windowOffset_eq_some_iff⟩
  · have ht := busTarget_eq_some h
    exact ⟨fun n => step_eq_of_serve_eq rfl rfl (serve_busRead ht n _),
      fun v => step_eq_of_serve_eq rfl rfl (serve_busWrite ht v _)⟩
  · have ht := busTarget_eq_none h
    exact ⟨fun n => step_served rfl (serve_busRead_gap ht n _),
      fun v => step_served rfl (serve_busWrite_gap ht v _)⟩

/-- Settles O22: the read finds the cell that the write left. -/
theorem readReturnsTheLatestWrite : Obligations.ReadReturnsTheLatestWrite := by
  intro s t u r r' i i' v rest hp ht hu
  cases (step_coefWrite hp).symm.trans ht
  cases (step_coefRead rfl).symm.trans hu
  refine ⟨_, rfl, ?_⟩
  rw [setWidth_cell_toNat, cell_setCell, BitVec.toNat_setWidth]
  rfl

end Sys2Proof.Machine
end

section
/-!
SUPPORT. The encoder read field by field (R81 to R83): what each field of an encoded word holds, and
which command the field OP of a word names. With the rows of the opcode map this settles O1.
-/

namespace Sys2Proof

open Sys2Proof.Laws.EncodesItsRow (rowMask rowMatch)

/-! ### The fields of an encoded word -/

section Fields
variable (d rb ra rd : BitVec 4) (op : BitVec 8)

@[simp] theorem wordOf_digit_op : (wordOf d rb ra rd op).extractLsb' 0 8 = op :=
  BitVec.extractLsb'_append_eq_right

/-- Above OP a word is its upper digits. -/
theorem wordOf_above_op (k n : Nat) (h : 8 ≤ k) : (wordOf d rb ra rd op).extractLsb' k n =
    (0x00#8 ++ d ++ rb ++ ra ++ rd).extractLsb' (k - 8) n :=
  BitVec.extractLsb'_append_eq_of_le h

@[simp] theorem wordOf_digit_rd : (wordOf d rb ra rd op).extractLsb' 8 4 = rd := by
  rw [wordOf_above_op _ _ _ _ _ _ _ (by decide), BitVec.extractLsb'_append_eq_right]

@[simp] theorem wordOf_digit_ra : (wordOf d rb ra rd op).extractLsb' 12 4 = ra := by
  rw [wordOf_above_op _ _ _ _ _ _ _ (by decide), BitVec.extractLsb'_append_eq_of_le (by decide),
    BitVec.extractLsb'_append_eq_right]

@[simp] theorem wordOf_digit_rb : (wordOf d rb ra rd op).extractLsb' 16 4 = rb := by
  rw [wordOf_above_op _ _ _ _ _ _ _ (by decide), BitVec.extractLsb'_append_eq_of_le (by decide),
    BitVec.extractLsb'_append_eq_of_le (by decide), BitVec.extractLsb'_append_eq_right]

@[simp] theorem wordOf_digit_d : (wordOf d rb ra rd op).extractLsb' 20 4 = d := by
  rw [wordOf_above_op _ _ _ _ _ _ _ (by decide), BitVec.extractLsb'_append_eq_of_le (by decide),
    BitVec.extractLsb'_append_eq_of_le (by decide), BitVec.extractLsb'_append_eq_of_le (by decide),
    BitVec.extractLsb'_append_eq_right]

@[simp] theorem wordOf_digit_z : (wordOf d rb ra rd op).extractLsb' 24 8 = 0#8 := by
  rw [wordOf_above_op _ _ _ _ _ _ _ (by decide), BitVec.extractLsb'_append_eq_of_le (by decide),
    BitVec.extractLsb'_append_eq_of_le (by decide), BitVec.extractLsb'_append_eq_of_le (by decide),
    BitVec.extractLsb'_append_eq_left]

end Fields

/-- The register number in a digit is its low three bits (R83). -/
theorem digit_low_bits (w : Word32) (k : Nat) :
    w.extractLsb' k 3 = (w.extractLsb' k 4).extractLsb' 0 3 := by
  ext i hi
  have : i < 4 := by omega
  simp [this]

theorem regField_low_bits (r : RegNum) : ((regField r).extractLsb' 0 3).toFin = r := by
  revert r; decide

/-- The operand idx lies in the digits RB and RA (R81). -/
theorem digits_append_eq_fieldIDX (w : Word32) :
    w.extractLsb' 16 4 ++ w.extractLsb' 12 4 = fieldIDX w :=
  BitVec.extractLsb'_append_extractLsb'_eq_extractLsb' (by rfl)

section Operands
variable (d rb ra rd : BitVec 4) (op : BitVec 8) (r : RegNum)

@[simp] theorem fieldOP_wordOf : fieldOP (wordOf d rb ra rd op) = op := wordOf_digit_op ..

@[simp] theorem fieldD_wordOf : fieldD (wordOf d rb ra rd op) = d := wordOf_digit_d ..

@[simp] theorem fieldRD_wordOf : fieldRD (wordOf d rb ra (regField r) op) = r := by
  rw [fieldRD, digit_low_bits, wordOf_digit_rd, regField_low_bits]

@[simp] theorem fieldRA_wordOf : fieldRA (wordOf d rb (regField r) rd op) = r := by
  rw [fieldRA, digit_low_bits, wordOf_digit_ra, regField_low_bits]

@[simp] theorem fieldRB_wordOf : fieldRB (wordOf d (regField r) ra rd op) = r := by
  rw [fieldRB, digit_low_bits, wordOf_digit_rb, regField_low_bits]

@[simp] theorem fieldIDX_wordOf (idx : BitVec 8) :
    fieldIDX (wordOf d (idx.extractLsb' 4 4) (idx.extractLsb' 0 4) rd op) = idx := by
  rw [← digits_append_eq_fieldIDX, wordOf_digit_rb, wordOf_digit_ra]
  exact BitVec.extractLsb'_append_extractLsb'

end Operands

/-! ### The command that OP names -/

/-- The command with the opcode `op`, its operands read from their fields of `w` and no other bit
looked at (R83, R84). -/
def commandNamedBy (op : BitVec 8) (w : Word32) : Option Instr :=
  match op.toNat with
  | 0x01 => some (.encode (fieldRA w) (fieldD w))
  | 0x02 => some (.decode (fieldRD w) (fieldD w))
  | 0x03 => some (.compress (fieldRD w) (fieldRA w) (fieldD w))
  | 0x04 => some (.decompress (fieldRD w) (fieldRA w) (fieldD w))
  | 0x05 => some (.ntt (fieldRD w) (fieldRA w))
  | 0x06 => some (.intt (fieldRD w) (fieldRA w))
  | 0x07 => some (.mulntt (fieldRD w) (fieldRA w) (fieldRB w))
  | 0x08 => some (.add (fieldRD w) (fieldRA w) (fieldRB w))
  | 0x09 => some (.sub (fieldRD w) (fieldRA w) (fieldRB w))
  | 0x0A => some (.brev7 (fieldIDX w))
  | _ => none

theorem commandNamedBy_encode (i : Instr) :
    commandNamedBy (fieldOP (encode i)) (encode i) = some i := by
  cases i <;> simp [commandNamedBy, encode]

/-- A mask that covers OP whole shows the opcode. -/
theorem commandNamedBy_of_masked {w m : Word32} {op : BitVec 8} (h : w &&& m = opWord op)
    (ho : m.extractLsb' 0 8 = 0xFF#8) : commandNamedBy (fieldOP w) w = commandNamedBy op w := by
  have o := masked_field h 0 8
  rw [ho, opWord_field_op] at o
  have hop : fieldOP w = op := (BitVec.and_allOnes (x := fieldOP w)).symm.trans o
  rw [hop]

/-- What the decoder can do, said once: it answers the command that OP names, or the word matches no
row (R95 step 1; the rows differ in OP). -/
theorem decode_cases (w : Word32) :
    (∃ i, decode w = .ok i ∧ commandNamedBy (fieldOP w) w = some i) ∨
      (∃ e, decode w = .error e ∧ ∀ i, w &&& rowMask i ≠ rowMatch i) := by
  generalize h : decode w = r
  unfold decode at h
  split at h
  case isTrue m => exact .inl ⟨_, h.symm, commandNamedBy_of_masked (op := 0x01) m rfl⟩
  split at h
  case isTrue m => exact .inl ⟨_, h.symm, commandNamedBy_of_masked (op := 0x02) m rfl⟩
  split at h
  case isTrue m => exact .inl ⟨_, h.symm, commandNamedBy_of_masked (op := 0x03) m rfl⟩
  split at h
  case isTrue m => exact .inl ⟨_, h.symm, commandNamedBy_of_masked (op := 0x04) m rfl⟩
  split at h
  case isTrue m => exact .inl ⟨_, h.symm, commandNamedBy_of_masked (op := 0x05) m rfl⟩
  split at h
  case isTrue m => exact .inl ⟨_, h.symm, commandNamedBy_of_masked (op := 0x06) m rfl⟩
  split at h
  case isTrue m => exact .inl ⟨_, h.symm, commandNamedBy_of_masked (op := 0x07) m rfl⟩
  split at h
  case isTrue m => exact .inl ⟨_, h.symm, commandNamedBy_of_masked (op := 0x08) m rfl⟩
  split at h
  case isTrue m => exact .inl ⟨_, h.symm, commandNamedBy_of_masked (op := 0x09) m rfl⟩
  split at h
  case isTrue m => exact .inl ⟨_, h.symm, commandNamedBy_of_masked (op := 0x0A) m rfl⟩
  exact .inr ⟨_, h.symm, fun i => by cases i <;> assumption⟩

/-- Every encoded word matches the row of its command (R84). -/
theorem encode_matches_row (i : Instr) : encode i &&& rowMask i = rowMatch i := by
  cases i with
  | encode ra d => exact Laws.EncodesItsRow.encode ra d
  | decode rd d => exact Laws.EncodesItsRow.decode rd d
  | compress rd ra d => exact Laws.EncodesItsRow.compress rd ra d
  | decompress rd ra d => exact Laws.EncodesItsRow.decompress rd ra d
  | ntt rd ra => exact Laws.EncodesItsRow.ntt rd ra
  | intt rd ra => exact Laws.EncodesItsRow.intt rd ra
  | mulntt rd ra rb => exact Laws.EncodesItsRow.mulntt rd ra rb
  | add rd ra rb => exact Laws.EncodesItsRow.add rd ra rb
  | sub rd ra rb => exact Laws.EncodesItsRow.sub rd ra rb
  | brev7 idx => exact Laws.EncodesItsRow.brev7 idx

/-- Settles O1: the word of a command matches that command's row, so it decodes, and its OP names
no other command. -/
theorem decodeOfEncodeGivesTheCommand : Obligations.DecodeOfEncodeGivesTheCommand := by
  intro i
  obtain ⟨j, hj, hn⟩ | ⟨e, _, hrow⟩ := decode_cases (encode i)
  · rw [commandNamedBy_encode] at hn
    rw [hj, Option.some.inj hn]
  · exact absurd (encode_matches_row i) (hrow i)

end Sys2Proof
end

section
/-!
SUPPORT. The malformed words of R96 against the encoder: a word is malformed exactly when it is no
command's word.
-/

namespace Sys2Proof

open Sys2Proof.Claims

theorem regField_toNat (r : RegNum) : (regField r).toNat = r.val := by
  revert r; decide

/-- The field of a register number that is read from a digit is the digit without its top bit. -/
theorem regField_digit_toNat (w : Word32) (k : Nat) :
    (regField (w.extractLsb' k 3).toFin).toNat = (w.extractLsb' k 4).toNat % 8 := by
  rw [regField_toNat, digit_low_bits, BitVec.val_toFin, BitVec.extractLsb'_toNat,
    Nat.shiftRight_zero]

/-- The two digits of the operand idx are the digits RB and RA (R81). -/
theorem fieldIDX_digits (w : Word32) :
    (fieldIDX w).extractLsb' 4 4 = w.extractLsb' 16 4 ∧
      (fieldIDX w).extractLsb' 0 4 = w.extractLsb' 12 4 := by
  rw [← digits_append_eq_fieldIDX]
  exact ⟨BitVec.extractLsb'_append_eq_left, BitVec.extractLsb'_append_eq_right⟩

/-- A word is put together from the values of its six fields (R81). -/
theorem wordOf_eq_of_toNat {w : Word32} {d rb ra rd : BitVec 4} {op : BitVec 8}
    (hop : (w.extractLsb' 0 8).toNat = op.toNat)
    (h : (w.extractLsb' 24 8).toNat = 0 ∧ (w.extractLsb' 20 4).toNat = d.toNat ∧
      (w.extractLsb' 16 4).toNat = rb.toNat ∧ (w.extractLsb' 12 4).toNat = ra.toNat ∧
      (w.extractLsb' 8 4).toNat = rd.toNat) : wordOf d rb ra rd op = w := by
  obtain ⟨hz, hd, hrb, hra, hrd⟩ := h
  rw [← BitVec.eq_of_toNat_eq hd, ← BitVec.eq_of_toNat_eq hrb, ← BitVec.eq_of_toNat_eq hra,
    ← BitVec.eq_of_toNat_eq hrd, ← BitVec.eq_of_toNat_eq hop]
  have z : w.extractLsb' 24 8 = 0#8 := BitVec.eq_of_toNat_eq hz
  have f := fields_append w
  rwa [z] at f

/-- No encoded word is malformed (R82). -/
theorem not_malformed_encode (i : Instr) : ¬ malformed (encode i) := by
  cases i <;> simp [malformed, encode, regField_toNat]

/-- A word that is not malformed is the word of a command: its opcode names the command, and the
fields that the format of R82 leaves empty are zero. -/
theorem exists_encode_eq_of_not_malformed {w : Word32} (h : ¬ malformed w) :
    ∃ i, encode i = w := by
  have hzero : (0 : BitVec 4).toNat = 0 := rfl
  have hd : (fieldD w).toNat = (w.extractLsb' 20 4).toNat := rfl
  have hrb : (regField (fieldRB w)).toNat = _ := regField_digit_toNat w 16
  have hra : (regField (fieldRA w)).toNat = _ := regField_digit_toNat w 12
  have hrd : (regField (fieldRD w)).toNat = _ := regField_digit_toNat w 8
  obtain ⟨hhi, hlo⟩ := fieldIDX_digits w
  rw [← BitVec.toNat_inj] at hhi hlo
  unfold malformed at h
  obtain hop | hop | hop | hop | hop | hop | hop | hop | hop | hop :
      (w.extractLsb' 0 8).toNat = 1 ∨ (w.extractLsb' 0 8).toNat = 2 ∨
      (w.extractLsb' 0 8).toNat = 3 ∨ (w.extractLsb' 0 8).toNat = 4 ∨
      (w.extractLsb' 0 8).toNat = 5 ∨ (w.extractLsb' 0 8).toNat = 6 ∨
      (w.extractLsb' 0 8).toNat = 7 ∨ (w.extractLsb' 0 8).toNat = 8 ∨
      (w.extractLsb' 0 8).toNat = 9 ∨ (w.extractLsb' 0 8).toNat = 10 := by omega
  · exact ⟨.encode (fieldRA w) (fieldD w), wordOf_eq_of_toNat hop (by omega)⟩
  · exact ⟨.decode (fieldRD w) (fieldD w), wordOf_eq_of_toNat hop (by omega)⟩
  · exact ⟨.compress (fieldRD w) (fieldRA w) (fieldD w), wordOf_eq_of_toNat hop (by omega)⟩
  · exact ⟨.decompress (fieldRD w) (fieldRA w) (fieldD w), wordOf_eq_of_toNat hop (by omega)⟩
  · exact ⟨.ntt (fieldRD w) (fieldRA w), wordOf_eq_of_toNat hop (by omega)⟩
  · exact ⟨.intt (fieldRD w) (fieldRA w), wordOf_eq_of_toNat hop (by omega)⟩
  · exact ⟨.mulntt (fieldRD w) (fieldRA w) (fieldRB w), wordOf_eq_of_toNat hop (by omega)⟩
  · exact ⟨.add (fieldRD w) (fieldRA w) (fieldRB w), wordOf_eq_of_toNat hop (by omega)⟩
  · exact ⟨.sub (fieldRD w) (fieldRA w) (fieldRB w), wordOf_eq_of_toNat hop (by omega)⟩
  · exact ⟨.brev7 (fieldIDX w), wordOf_eq_of_toNat hop (by omega)⟩

/-- The words that match no row are the malformed words (R96): the encoder makes every other word, and
its words decode by O1 and O2. -/
theorem decode_error_iff_malformed (w : Word32) : (∃ e, decode w = .error e) ↔ malformed w := by
  constructor
  · rintro ⟨e, he⟩
    by_contra h
    obtain ⟨i, rfl⟩ := exists_encode_eq_of_not_malformed h
    cases he.symm.trans (decodeOfEncodeGivesTheCommand i)
  · intro h
    cases hd : decode w with
    | error e => exact ⟨e, rfl⟩
    | ok i =>
      rw [← decodedWordIsTheCommandsWord w i hd] at h
      exact absurd h (not_malformed_encode i)

end Sys2Proof
end

section
/-!
SUPPORT. The faults of one command word: the record a fault writes, a malformed word at CMD, and the
two operand checks (R95, R203).
-/

namespace Sys2Proof.Machine

open Sys2Proof.Claims

/-- Taking a fault writes the record and nothing else (R203). -/
theorem onlyRecorded_raiseFault (s : State) (c : Cause) (w : Word32) :
    onlyRecorded c w s (s.raiseFault c w) :=
  ⟨rfl, rfl, rfl, fun _ _ _ => rfl, fun _ _ _ => rfl, rfl, rfl, rfl, rfl⟩

/-- A word that matches no row, written to CMD outside the fault state, raises ILLEGAL_CMD (R95
step 1). -/
theorem step_illegalCmd {s : State} {w : Word32} {rest : List HostEvent} {e : Reject}
    (hp : s.pending = cmdEvent w :: rest) (hf : s.fault = false) (hw : decode w = .error e) :
    step s = .next ((answered .ok rest s).raiseFault .illegalCmd w) := by
  have hs := serve_cmdWrite (.inl rfl : cmdEvent w = cmdEvent w ∨ _) { s with pending := rest }
  exact (step_command hp (hs.trans (cmdWrite_issued w hf))).trans (issue_error _ hw)

/-- The commands that take an operand d, with their operand (R84). -/
def operandD : Instr → Option (BitVec 4)
  | .encode _ d => some d
  | .decode _ d => some d
  | .compress _ _ d => some d
  | .decompress _ _ d => some d
  | _ => none

/-- Each command that takes an operand d checks it first (R95 step 2). -/
theorem exec_illegalD {i : Instr} {d : BitVec 4} (s : State) (hi : operandD i = some d)
    (hd : legalD d = false) : exec i s = .next (s.raiseFault .illegalD (encode i)) := by
  cases i <;> cases hi <;> exact congrArg Host.Outcome.next (withLegalD_illegal _ s _ hd)

/-- BREV7 checks its operand idx (R95 step 3). -/
theorem exec_invalidArg {idx : BitVec 8} (s : State) (h : 127 < idx.toNat) :
    exec (.brev7 idx) s = .next (s.raiseFault .invalidArg (encode (.brev7 idx))) := by
  obtain ⟨_, hx⟩ | ⟨hle, _⟩ := execBrev7_cases s idx
  · exact hx
  · omega

end Sys2Proof.Machine
end

section
/-!
The statements on the encoding (30_encoding.md).
-/

namespace Sys2Proof.Machine

open Sys2Proof.Claims

/-- Settles O3: a malformed word matches no row, and the issue of such a word raises ILLEGAL_CMD. -/
theorem malformedWordsAreIllegal : Obligations.MalformedWordsAreIllegal := by
  intro w
  refine ⟨decode_error_iff_malformed w, fun h s rest hf hp => ?_⟩
  obtain ⟨e, he⟩ := (decode_error_iff_malformed w).mpr h
  exact ⟨_, step_illegalCmd hp hf he, onlyRecorded_raiseFault _ _ w⟩

/-- Settles O12: none of the four values of d is legal, and each command checks d first. -/
theorem illegalDFaultsAndWritesOnlyTheRecord :
    Obligations.IllegalDFaultsAndWritesOnlyTheRecord := by
  intro rd ra d s hd i hi
  have hillegal : legalD d = false := by
    obtain rfl | rfl | rfl | rfl := hd <;> decide
  have hi' : operandD i = some d := by
    simp only [List.mem_cons, List.not_mem_nil, or_false] at hi
    obtain rfl | rfl | rfl | rfl := hi <;> rfl
  exact ⟨_, exec_illegalD s hi' hillegal, onlyRecorded_raiseFault s _ _⟩

/-- A word worked out from a command decodes to it, by O1. -/
theorem decode_of_encode_eq {i : Instr} {w : Word32} (h : encode i = w) :
    decode w = .ok i ∧ encode i = w :=
  ⟨h ▸ decodeOfEncodeGivesTheCommand i, h⟩

/-- Settles O4: each worked word is computed by the encoder; the decoder follows by O1, the illegal
words by R96, and the faults from the operand checks. -/
theorem workedEncodingsReadAsR100Says : Obligations.WorkedEncodingsReadAsR100Says := by
  have brev : encode (.brev7 128) = 0x0008000A#32 := by decide
  have d0 : encode (.compress 5 4 0) = 0x00004503#32 := by decide
  have d13 : encode (.compress 5 4 13) = 0x00D04503#32 := by decide
  refine ⟨decode_of_encode_eq (by decide), decode_of_encode_eq (by decide),
    decode_of_encode_eq (by decide), decode_of_encode_eq (by decide),
    decode_of_encode_eq (by decide), decode_of_encode_eq (by decide),
    decode_of_encode_eq (by decide), decode_of_encode_eq (by decide),
    decode_of_encode_eq (by decide), decode_of_encode_eq (by decide),
    decode_of_encode_eq (by decide), ⟨(decode_of_encode_eq brev).1, fun s => ?_⟩, fun w hw => ?_,
    ⟨(decode_of_encode_eq d0).1, fun s => ?_⟩, ⟨(decode_of_encode_eq d13).1, fun s => ?_⟩⟩
  · rw [← brev]
    exact exec_invalidArg s (by decide)
  · refine (decode_error_iff_malformed w).mpr ?_
    simp only [List.mem_cons, List.not_mem_nil, or_false] at hw
    unfold malformed
    obtain rfl | rfl | rfl | rfl | rfl := hw <;> decide
  · rw [← d0]
    exact exec_illegalD s rfl (by decide)
  · rw [← d13]
    exact exec_illegalD s rfl (by decide)

end Sys2Proof.Machine
end

section
/-!
SUPPORT. The scalar primitives by value: a bit sequence and the number it stands for, the fields of a
sequence and the sequence of the fields (R120 to R123), and rounding as a rational floor (R118, R119).
-/

namespace Sys2Proof.Machine

open Sys2Proof.Claims

/-! ### A bit sequence and its number -/

/-- Entry j of a sequence is bit j of its number. -/
theorem testBit_bitsValue (b : List Bool) (j : Nat) : (bitsValue b).testBit j = b.getD j false := by
  induction b generalizing j with
  | nil => simp [bitsValue]
  | cons x b ih =>
    have hform : bitsValue (x :: b) = Nat.bit x (bitsValue b) := by
      rw [bitsValue, Nat.bit_val, Nat.add_comm]
    cases j with
    | zero => simp [hform]
    | succ j => simp [hform, Nat.testBit_bit_succ, ih]

theorem valueBits_getElem (w v j : Nat) (h : j < (valueBits w v).length) :
    (valueBits w v)[j] = v.testBit j := by
  simp [valueBits]

theorem valueBits_getD (w v : Nat) {j : Nat} (h : j < w) : (valueBits w v).getD j false = v.testBit j := by
  rw [List.getD_eq_getElem _ _ (by simpa using h), valueBits_getElem]

/-- The bits of a sequence's number are the sequence. -/
theorem valueBits_bitsValue (b : List Bool) : valueBits b.length (bitsValue b) = b := by
  refine List.ext_getElem (by simp) fun j _ hj => ?_
  rw [valueBits_getElem, testBit_bitsValue, List.getD_eq_getElem _ _ hj]

/-- Only the low w bits of a number go into its w-bit field. -/
theorem valueBits_mod_two_pow (w v : Nat) : valueBits w (v % 2 ^ w) = valueBits w v := by
  refine List.ext_getElem (by simp) fun j hj _ => ?_
  have hjw : j < w := by simpa using hj
  simp [valueBits_getElem, Nat.testBit_mod_two_pow, hjw]

/-- The number of a w-bit field is the value modulo 2^w. -/
theorem bitsValue_valueBits (w v : Nat) : bitsValue (valueBits w v) = v % 2 ^ w := by
  refine Nat.eq_of_testBit_eq fun j => ?_
  rw [testBit_bitsValue, Nat.testBit_mod_two_pow]
  by_cases h : j < w
  · rw [valueBits_getD w v h]
    simp [h]
  · rw [List.getD_eq_default _ _ (by simpa using h)]
    simp [h]

/-! ### The fields of a sequence -/

/-- Bit i of field k is bit w*k + i of the sequence (R120, R123). -/
theorem testBit_bitFields (n w : Nat) (b : List Bool) {k i : Nat} (hk : k < n) (hi : i < w) :
    ((bitFields n w b).getD k 0).testBit i = b.getD (w * k + i) false := by
  rw [List.getD_eq_getElem?_getD, bitFields_getElem? n w b k hk, Option.getD_some, testBit_bitsValue]
  simp [List.getD_eq_getElem?_getD, hi, List.getElem?_drop]

/-- Cutting a sequence of n*w bits into fields and writing the fields out again gives it back. -/
theorem flatMap_valueBits_bitFields (n w : Nat) (b : List Bool) (h : b.length = n * w) :
    (bitFields n w b).flatMap (valueBits w) = b := by
  induction n generalizing b with
  | zero => simpa [bitFields] using h
  | succ n ih =>
    rw [Nat.succ_mul] at h
    have hhead : (b.take w).length = w := by rw [List.length_take]; omega
    have htail : (b.drop w).length = n * w := by rw [List.length_drop]; omega
    calc (bitFields (n + 1) w b).flatMap (valueBits w)
        = valueBits w (bitsValue (b.take w)) ++ (bitFields n w (b.drop w)).flatMap (valueBits w) := by
          rw [bitFields, List.flatMap_cons]
      _ = valueBits (b.take w).length (bitsValue (b.take w)) ++ b.drop w := by rw [ih _ htail, hhead]
      _ = b := by rw [valueBits_bitsValue, List.take_append_drop]

/-- Writing values out as w-bit fields and cutting the sequence again gives them modulo 2^w. -/
theorem bitFields_flatMap_valueBits (w : Nat) (vs : List Nat) :
    bitFields vs.length w (vs.flatMap (valueBits w)) = vs.map (· % 2 ^ w) := by
  induction vs with
  | nil => rfl
  | cons v vs ih =>
    have hlen : (valueBits w v).length = w := valueBits_length w v
    rw [List.length_cons, bitFields, List.flatMap_cons, List.take_left' hlen, List.drop_left' hlen,
      bitsValue_valueBits, ih, List.map_cons]

/-! ### Bits and bytes -/

@[simp] theorem bitsToBytes_length (b : List Bool) : (bitsToBytes b).length = b.length / 8 := by
  simp [bitsToBytes]

/-- Bit i of byte k is bit 8k+i of the sequence (R120). -/
theorem bitsToBytes_getLsbD (b : List Bool) {k i : Nat} (hk : k < b.length / 8) (hi : i < 8) :
    ((bitsToBytes b).getD k 0#8).getLsbD i = b.getD (8 * k + i) false := by
  have hbyte : (bitsToBytes b).getD k 0#8 = BitVec.ofNat 8 ((bitFields (b.length / 8) 8 b).getD k 0) :=
    List.getD_map _ _ (fun v => BitVec.ofNat 8 v)
  rw [hbyte, BitVec.getLsbD_ofNat, testBit_bitFields _ _ b hk hi]
  simp [hi]

/-- R120 undone by R121. -/
theorem bytesToBits_bitsToBytes (b : List Bool) (h : b.length % 8 = 0) :
    bytesToBits (bitsToBytes b) = b := by
  have hfield (v : Nat) : valueBits 8 (BitVec.ofNat 8 v).toNat = valueBits 8 v := by
    rw [BitVec.toNat_ofNat, valueBits_mod_two_pow]
  simp only [bytesToBits, bitsToBytes, List.flatMap_map, hfield]
  exact flatMap_valueBits_bitFields _ 8 b (by omega)

/-- R121 undone by R120. -/
theorem bitsToBytes_bytesToBits (bytes : List Byte) : bitsToBytes (bytesToBits bytes) = bytes := by
  have hbits : bytesToBits bytes = (bytes.map BitVec.toNat).flatMap (valueBits 8) := by
    rw [bytesToBits, List.flatMap_map]
  have hcount : (bytesToBits bytes).length / 8 = (bytes.map BitVec.toNat).length := by
    rw [bytesToBits_length, List.length_map]; omega
  rw [bitsToBytes, hcount, hbits, bitFields_flatMap_valueBits, List.map_map, List.map_map]
  refine List.map_id'' (fun x => BitVec.eq_of_toNat_eq ?_) bytes
  simp [Nat.mod_eq_of_lt x.isLt]

/-- Bit 8k+i of the sequence is bit i of byte k (R121): the sequence is read through its own bytes. -/
theorem bytesToBits_getD (bytes : List Byte) {k i : Nat} (hk : k < bytes.length) (hi : i < 8) :
    (bytesToBits bytes).getD (8 * k + i) false = (bytes.getD k 0#8).getLsbD i := by
  rw [← bitsToBytes_getLsbD (bytesToBits bytes) (by rw [bytesToBits_length]; omega) hi,
    bitsToBytes_bytesToBits]

/-! ### Rounding -/

/-- The integer form of round_nearest is the rational rounding (R118, R119), for negative a too. -/
theorem roundQ_div (a : Int) {m : Int} (hm : 0 < m) : roundQ ((a : ℚ) / m) = roundNearest a m := by
  lift m to Nat using hm.le
  have hm0 : (m : ℚ) ≠ 0 := by exact_mod_cast hm.ne'
  have hhalf : (a : ℚ) / m + 1 / 2 = ((2 * a + m : Int) : ℚ) / ((2 * m : Nat) : ℚ) := by
    push_cast
    field_simp
  calc roundQ ((a : ℚ) / m)
      = ⌊((2 * a + m : Int) : ℚ) / ((2 * m : Nat) : ℚ)⌋ := by rw [← hhalf, roundQ]
    _ = (2 * a + m) / ((2 * m : Nat) : Int) := Rat.floor_intCast_div_natCast _ _
    _ = roundNearest a m := by simp [roundNearest]

end Sys2Proof.Machine
end

section
/-!
The statements on the scalar primitives (40_arith_primitives.md).
-/

namespace Sys2Proof.Machine

/-- Settles O35, by cutting a sequence into 8-bit fields and writing the fields out again. -/
theorem bitsAndBytesAreInverse : Obligations.BitsAndBytesAreInverse :=
  ⟨fun b h => ⟨bytesToBits_bitsToBytes b h, bitsToBytes_length b,
      fun _ hk _ hi => bitsToBytes_getLsbD b hk hi⟩,
    fun bytes => ⟨bitsToBytes_bytesToBits bytes, bytesToBits_length bytes,
      fun _ hk _ hi => bytesToBits_getD bytes hk hi⟩⟩

/-- Settles O36: the quotient with half added is an integer quotient, whose floor is integer division. -/
theorem roundNearestIsExact : Obligations.RoundNearestIsExact :=
  fun a _ _ hm => ⟨roundQ_div a hm, (roundQ_div a hm).symm⟩

end Sys2Proof.Machine
end

section
/-!
SUPPORT. The codec on sequences: the d-bit fields that a byte sequence holds, and ByteEncode and
ByteDecode by those fields (R122, R123).
-/

namespace Sys2Proof.Machine

/-- The 256 fields of d bits that a byte sequence holds, before ByteDecode reduces them (R123). -/
def codeFields (bytes : List Byte) (d : Nat) : List Nat := bitFields 256 d (bytesToBits bytes)

/-- ByteDecode reduces the fields (R123). -/
theorem byteDecode_eq_map_codeFields (bytes : List Byte) (d : Nat) :
    byteDecode bytes d = (codeFields bytes d).map fun (v : Nat) => (v : Int) % decodeModulus d := rfl

@[simp] theorem codeFields_length (bytes : List Byte) (d : Nat) :
    (codeFields bytes d).length = 256 := bitFields_length _ _ _

theorem codeFields_lt {bytes : List Byte} {d v : Nat} (h : v ∈ codeFields bytes d) : v < 2 ^ d := by
  obtain ⟨k, hk, hv⟩ := List.mem_iff_getElem.mp h
  have hfield := bitFields_getElem? 256 d (bytesToBits bytes) k (by simpa using hk)
  have hval : v = bitsValue (((bytesToBits bytes).drop (d * k)).take d) := by
    rw [← hv]
    exact Option.some.inj ((List.getElem?_eq_getElem hk).symm.trans hfield)
  rw [hval]
  exact (bitsValue_lt _).trans_le (Nat.pow_le_pow_right two_pos (List.length_take_le ..))

/-- What holds of every field holds of the field at every position. -/
theorem forall_mem_codeFields_iff (bytes : List Byte) (d : Nat) (p : Nat → Prop) :
    (∀ v ∈ codeFields bytes d, p v) ↔ ∀ i, i < 256 → p ((codeFields bytes d).getD i 0) := by
  rw [List.forall_mem_iff_getElem]
  refine forall_congr' fun i => ⟨fun h hi => ?_, fun h hi => ?_⟩
  · rw [List.getD_eq_getElem _ _ (by simpa using hi)]
    exact h _
  · rw [← List.getD_eq_getElem _ 0 hi]
    exact h (by simpa using hi)

theorem codeFields_getD_lt (bytes : List Byte) (d : Nat) {i : Nat} (hi : i < 256) :
    (codeFields bytes d).getD i 0 < 2 ^ d :=
  (forall_mem_codeFields_iff bytes d (· < 2 ^ d)).mp (fun _ => codeFields_lt) i hi

/-- The bit positions of the 256 fields fill 32*d bytes. -/
theorem field_bit_div_lt {d i j : Nat} (hi : i < 256) (hj : j < d) : (i * d + j) / 8 < 32 * d := by
  have h : (i + 1) * d ≤ 256 * d := Nat.mul_le_mul_right d hi
  rw [Nat.succ_mul] at h
  omega

/-- Bit j of field i is bit i*d + j of the bytes, low bit first (R121, R123). -/
theorem testBit_codeFields {bytes : List Byte} {d i j : Nat} (hb : bytes.length = 32 * d)
    (hi : i < 256) (hj : j < d) : ((codeFields bytes d).getD i 0).testBit j =
      (bytes.getD ((i * d + j) / 8) 0#8).getLsbD ((i * d + j) % 8) := by
  rw [codeFields, testBit_bitFields 256 d _ hi hj, Nat.mul_comm d i,
    ← bytesToBits_getD bytes (hb ▸ field_bit_div_lt hi hj) (Nat.mod_lt _ (by decide)),
    Nat.div_add_mod]

/-- The low d bits of a number add up to the number modulo 2^d. -/
theorem sum_testBit (v d : Nat) :
    ∑ j ∈ Finset.range d, (v.testBit j).toNat * 2 ^ j = v % 2 ^ d := by
  induction d with
  | zero => simp [Nat.mod_one]
  | succ d ih => rw [Finset.sum_range_succ, ih, Nat.mod_pow_succ, Nat.toNat_testBit, Nat.mul_comm]

/-- The bits of an encoded sequence are the fields of its values (R122). -/
theorem bytesToBits_byteEncode {f : List Int} (d : Nat) (hf : f.length = 256) :
    bytesToBits (byteEncode f d) = (f.map Int.toNat).flatMap (valueBits d) := by
  rw [List.flatMap_map]
  refine bytesToBits_bitsToBytes _ ?_
  rw [flatMap_valueBits_length, hf]
  omega

/-- The fields of an encoded sequence are its values. -/
theorem codeFields_byteEncode {f : List Int} {d : Nat} (hf : f.length = 256)
    (hr : ∀ v ∈ f, v.toNat < 2 ^ d) : codeFields (byteEncode f d) d = f.map Int.toNat := by
  have hcut := bitFields_flatMap_valueBits d (f.map Int.toNat)
  rw [List.length_map, hf, List.map_map] at hcut
  rw [codeFields, bytesToBits_byteEncode d hf, hcut]
  exact List.map_congr_left fun v hv => Nat.mod_eq_of_lt (hr v hv)

/-- Encoding the fields of 32*d bytes gives the bytes back. -/
theorem byteEncode_codeFields {bytes : List Byte} {d : Nat} (hb : bytes.length = 32 * d) :
    byteEncode ((codeFields bytes d).map Int.ofNat) d = bytes := by
  have hlen : (bytesToBits bytes).length = 256 * d := by rw [bytesToBits_length, hb]; omega
  rw [byteEncode, List.flatMap_map]
  exact (congrArg bitsToBytes (flatMap_valueBits_bitFields 256 d _ hlen)).trans
    (bitsToBytes_bytesToBits bytes)

/-! ### The reduction of the fields -/

theorem decodeModulus_eq_cast (d : Nat) :
    decodeModulus d = ((if d < 12 then 2 ^ d else 3329 : Nat) : Int) := by
  unfold decodeModulus
  split <;> simp

theorem decodeModulus_of_lt {d : Nat} (h : d < 12) : decodeModulus d = ((2 ^ d : Nat) : Int) := by
  rw [decodeModulus_eq_cast, if_pos h]

theorem decodeModulus_pos (d : Nat) : 0 < decodeModulus d := by
  unfold decodeModulus
  split
  · positivity
  · decide

/-- The modulus is no more than the number of values of a field (R123). -/
theorem decodeModulus_le {d : Nat} (h : d ≤ 12) : decodeModulus d ≤ ((2 ^ d : Nat) : Int) := by
  obtain hd | rfl := Nat.lt_or_eq_of_le h
  · rw [decodeModulus_of_lt hd]
  · decide

theorem mem_byteDecode_range {bytes : List Byte} {d : Nat} {v : Int} (h : v ∈ byteDecode bytes d) :
    0 ≤ v ∧ v < decodeModulus d := by
  obtain ⟨u, _, rfl⟩ := List.mem_map.mp h
  exact ⟨Int.emod_nonneg _ (decodeModulus_pos d).ne', Int.emod_lt_of_pos _ (decodeModulus_pos d)⟩

/-- R142, first half: values below the modulus come back from their encoding. -/
theorem byteDecode_byteEncode {f : List Int} {d : Nat} (hd : d ≤ 12) (hf : f.length = 256)
    (hr : ∀ v ∈ f, 0 ≤ v ∧ v < decodeModulus d) : byteDecode (byteEncode f d) d = f := by
  have hle := decodeModulus_le hd
  have hfield (v : Int) (hv : v ∈ f) : v.toNat < 2 ^ d := by have := hr v hv; omega
  rw [byteDecode_eq_map_codeFields, codeFields_byteEncode hf hfield, List.map_map]
  refine (List.map_congr_left fun v hv => ?_).trans (List.map_id f)
  obtain ⟨h0, h1⟩ := hr v hv
  rw [Function.comp_apply, Int.toNat_of_nonneg h0, Int.emod_eq_of_lt h0 h1, id]

/-- R142, second half: bytes come back from their decoding exactly when no field was reduced. -/
theorem byteEncode_byteDecode_iff {bytes : List Byte} {d : Nat} (hd : d ≤ 12)
    (hb : bytes.length = 32 * d) : byteEncode (byteDecode bytes d) d = bytes ↔
      ∀ v ∈ codeFields bytes d, (v : Int) < decodeModulus d := by
  constructor
  · intro h v hv
    have hle := decodeModulus_le hd
    have hfields : codeFields bytes d = (byteDecode bytes d).map Int.toNat := by
      rw [← codeFields_byteEncode (byteDecode_length bytes d), h]
      intro u hu
      have := mem_byteDecode_range hu
      omega
    rw [hfields] at hv
    obtain ⟨u, hu, rfl⟩ := List.mem_map.mp hv
    have := mem_byteDecode_range hu
    omega
  · intro h
    have hkept : byteDecode bytes d = (codeFields bytes d).map Int.ofNat :=
      List.map_congr_left fun v hv => Int.emod_eq_of_lt (Int.natCast_nonneg v) (h v hv)
    rw [hkept, byteEncode_codeFields hb]

/-! ### Fields of 12 bits -/

/-- Two numbers of w bits with equal bits are equal. -/
theorem eq_of_testBit_eq_below {w x y : Nat} (hx : x < 2 ^ w) (hy : y < 2 ^ w)
    (h : ∀ j, j < w → x.testBit j = y.testBit j) : x = y := by
  refine Nat.eq_of_testBit_eq fun j => ?_
  obtain hj | hj := Nat.lt_or_ge j w
  · exact h j hj
  · have hw : 2 ^ w ≤ 2 ^ j := Nat.pow_le_pow_right two_pos hj
    rw [Nat.testBit_lt_two_pow (hx.trans_le hw), Nat.testBit_lt_two_pow (hy.trans_le hw)]

/-- A low part below 2^p keeps its bits under a multiple of 2^p. -/
theorem testBit_add_two_pow_mul {low p : Nat} (high : Nat) (h : low < 2 ^ p) (j : Nat) :
    (low + 2 ^ p * high).testBit j = if j < p then low.testBit j else high.testBit (j - p) := by
  rw [Nat.add_comm, Nat.testBit_two_pow_mul_add high h]

/-- Three bytes hold two fields of 12 bits: the low digit of the middle byte ends the first field, its
high digit begins the second. -/
theorem codeFields_twelve {bytes : List Byte} (hb : bytes.length = 384) {m : Nat} (hm : m < 128) :
    (codeFields bytes 12).getD (2 * m) 0 = (bytes.getD (3 * m) 0#8).toNat +
        2 ^ 8 * ((bytes.getD (3 * m + 1) 0#8).toNat % 2 ^ 4) ∧
      (codeFields bytes 12).getD (2 * m + 1) 0 = (bytes.getD (3 * m + 1) 0#8).toNat / 2 ^ 4 +
        2 ^ 4 * (bytes.getD (3 * m + 2) 0#8).toNat := by
  have hbit {i j : Nat} (hi : i < 256) (hj : j < 12) := testBit_codeFields (d := 12) hb hi hj
  have hfield {i : Nat} (hi : i < 256) := codeFields_getD_lt bytes 12 hi
  have b0 := (bytes.getD (3 * m) 0#8).isLt
  have b1 := (bytes.getD (3 * m + 1) 0#8).isLt
  have b2 := (bytes.getD (3 * m + 2) 0#8).isLt
  constructor
  · refine eq_of_testBit_eq_below (hfield (by omega)) (by omega) fun j hj => ?_
    rw [hbit (by omega) hj, testBit_add_two_pow_mul _ b0]
    obtain hj8 | hj8 := Nat.lt_or_ge j 8
    · rw [if_pos hj8, show (2 * m * 12 + j) / 8 = 3 * m by omega,
        show (2 * m * 12 + j) % 8 = j by omega]
      rfl
    · rw [if_neg hj8.not_gt, show (2 * m * 12 + j) / 8 = 3 * m + 1 by omega,
        show (2 * m * 12 + j) % 8 = j - 8 by omega, Nat.testBit_mod_two_pow,
        decide_eq_true (by omega : j - 8 < 4)]
      rfl
  · have hlow : (bytes.getD (3 * m + 1) 0#8).toNat / 2 ^ 4 < 2 ^ 4 := by omega
    refine eq_of_testBit_eq_below (hfield (by omega)) (by omega) fun j hj => ?_
    rw [hbit (by omega) hj, testBit_add_two_pow_mul _ hlow]
    obtain hj4 | hj4 := Nat.lt_or_ge j 4
    · rw [if_pos hj4, show ((2 * m + 1) * 12 + j) / 8 = 3 * m + 1 by omega,
        show ((2 * m + 1) * 12 + j) % 8 = j + 4 by omega, Nat.testBit_div_two_pow]
      rfl
    · rw [if_neg hj4.not_gt, show ((2 * m + 1) * 12 + j) / 8 = 3 * m + 2 by omega,
        show ((2 * m + 1) * 12 + j) % 8 = j - 4 by omega]
      rfl

end Sys2Proof.Machine
end

section
/-!
SUPPORT. The codec on the state: registers written from integers and read back, BUF written from a
sequence and read back, and the two commands with their checks passed or failed (R140, R141, R152).
-/

namespace Sys2Proof.Machine

open Sys2Proof.Claims

/-! ### Registers and integers -/

theorem entry_source_eq_cell (s : State) (r : RegNum) {k : Nat} (h : k < 256) :
    entry (s.source r) k = cell (s.reg r) k := by
  rw [s.entry_source r k h, cell_eq_getElem _ h]

/-- What holds of every integer of a source holds of every cell. -/
theorem forall_mem_source_iff (s : State) (r : RegNum) (p : Int → Prop) :
    (∀ v ∈ s.source r, p v) ↔ ∀ k, k < 256 → p (cell (s.reg r) k) := by
  rw [List.forall_mem_iff_getElem]
  have hentry (k : Nat) (h : k < 256) :
      (s.source r)[k]'(by rwa [s.source_length]) = cell (s.reg r) k := by
    rw [cell_eq_getElem _ h]
    exact ints_getElem _ k h
  constructor
  · intro h k hk
    exact hentry k hk ▸ h k (by rwa [s.source_length])
  · intro h k hk
    rw [s.source_length] at hk
    exact (hentry k hk).symm ▸ h k hk

/-- Every cell is below 2^12. -/
theorem cell_lt (v : RingReg) {k : Nat} (h : k < 256) : cell v k < 2 ^ 12 := by
  rw [cell_eq_getElem v h]
  exact v[k].isLt

/-- Every cell of a source in range fits in a field of d bits, at d = 12 by the width of a cell. -/
theorem cell_lt_of_inRange {v : RingReg} {d k : Nat} (hd : d ≤ 12) (h : inRange v d) (hk : k < 256) :
    cell v k < 2 ^ d := by
  obtain hlt | rfl := Nat.lt_or_eq_of_le hd
  · exact h k hk hlt
  · exact cell_lt v hk

/-- The fields that ENCODE writes are the cells of its source (R122, R140). -/
theorem codeFields_byteEncode_source (s : State) {ra : RegNum} {d i : Nat} (hd : d ≤ 12)
    (hr : inRange (s.reg ra) d) (hi : i < 256) :
    (codeFields (byteEncode (s.source ra) d) d).getD i 0 = cell (s.reg ra) i := by
  have hfits : ∀ v ∈ s.source ra, v.toNat < 2 ^ d :=
    (forall_mem_source_iff s ra _).mpr fun _ hc => cell_lt_of_inRange hd hr hc
  rw [codeFields_byteEncode (s.source_length ra) hfits, ← Int.toNat_natCast (cell _ _),
    ← entry_source_eq_cell s ra hi]
  exact List.getD_map (d := 0) _ Int.toNat

/-- The check OPERAND_RANGE passes exactly on the sources in range (R201). -/
theorem outOfRange_source_eq_false_iff (s : State) (r : RegNum) (d : Nat) :
    outOfRange (s.source r) d = false ↔ inRange (s.reg r) d := by
  rw [← Bool.not_eq_true, State.source, outOfRange_iff]
  constructor
  · intro h k hk hd
    rw [cell_eq_getElem _ hk]
    exact Nat.lt_of_not_le fun hle => h ⟨hd, ⟨k, hk⟩, hle⟩
  · rintro h ⟨hd, i, hi⟩
    have hlt := h i i.isLt hd
    rw [cell_eq_getElem _ i.isLt] at hlt
    exact absurd hi hlt.not_ge

/-- A register read as integers and written from them is as it was. -/
theorem ofInts_ints (v : RingReg) : ofInts (ints v) = v := by
  refine Vector.ext fun k hk => ?_
  rw [ofInts_getElem _ k hk, entry_ints v k hk, BitVec.ofInt_natCast, BitVec.ofNat_toNat,
    BitVec.setWidth_eq]

/-- Integers that fit in cells come back from a register written from them. -/
theorem ints_ofInts {vs : List Int} (hlen : vs.length = 256) (h : ∀ v ∈ vs, 0 ≤ v ∧ v < 4096) :
    ints (ofInts vs) = vs := by
  refine List.ext_getElem (by rw [ints_length, hlen]) fun k hk hk' => ?_
  have h256 : k < 256 := by rwa [ints_length] at hk
  have hentry : entry vs k = vs[k] := List.getD_eq_getElem _ _ hk'
  obtain ⟨h0, h1⟩ := h _ (List.getElem_mem hk')
  rw [ints_getElem _ k h256, ofInts_toNat vs k h256 (hentry ▸ h0) (hentry ▸ h1), hentry]

/-- The values of DECODE fit in cells, so they are what the destination then holds (R141). -/
theorem ints_ofInts_byteDecode (bytes : List Byte) {d : Nat} (hd : d ≤ 12) :
    ints (ofInts (byteDecode bytes d)) = byteDecode bytes d := by
  refine ints_ofInts (byteDecode_length bytes d) fun v hv => ?_
  have hmod := mem_byteDecode_range hv
  have hle := decodeModulus_le hd
  have hpow : 2 ^ d ≤ 2 ^ 12 := Nat.pow_le_pow_right two_pos hd
  omega

/-- Cell i after DECODE is field i, reduced (R123, R141). -/
theorem cell_ofInts_byteDecode (bytes : List Byte) {d i : Nat} (hd : d ≤ 12) (hi : i < 256) :
    cell (ofInts (byteDecode bytes d)) i =
      (codeFields bytes d).getD i 0 % (if d < 12 then 2 ^ d else 3329) := by
  have hentry := entry_ints (ofInts (byteDecode bytes d)) i hi
  rw [ints_ofInts_byteDecode bytes hd, ← cell_eq_getElem _ hi] at hentry
  have hfield : entry (byteDecode bytes d) i =
      ((codeFields bytes d).getD i 0 : Int) % decodeModulus d :=
    List.getD_map (d := 0) _ fun (v : Nat) => (v : Int) % decodeModulus d
  rw [hfield, decodeModulus_eq_cast] at hentry
  exact_mod_cast hentry.symm

/-- What DECODE leaves is in range for an ENCODE with the same d. -/
theorem inRange_ofInts_byteDecode (bytes : List Byte) {d : Nat} (hd : d ≤ 12) :
    inRange (ofInts (byteDecode bytes d)) d := by
  intro k hk hlt
  rw [cell_ofInts_byteDecode bytes hd hk, if_pos hlt]
  exact Nat.mod_lt _ (Nat.two_pow_pos d)

/-! ### BUF and byte sequences -/

/-- Entry k of the bytes DECODE reads is byte k of BUF. -/
theorem readBuf_getD_toNat (s : State) {m k : Nat} (hm : k < m) (hk : k < 384) :
    ((s.readBuf m).getD k 0#8).toNat = byte s k := by
  rw [List.getD_eq_getElem _ _ (by simp [hm, hk]), s.readBuf_getElem m k hm hk, byte_eq_getElem s hk]

/-- The first m bytes of BUF are the same in two states when their values are. -/
theorem readBuf_eq_iff (s t : State) {m : Nat} (hm : m ≤ 384) :
    s.readBuf m = t.readBuf m ↔ ∀ k, k < m → byte s k = byte t k := by
  constructor
  · intro h k hk
    rw [← readBuf_getD_toNat s hk (by omega), h, readBuf_getD_toNat t hk (by omega)]
  · intro h
    refine List.ext_getElem (by simp) fun k hk _ => ?_
    have hkm : k < m := by rw [s.readBuf_length] at hk; omega
    have h384 : k < 384 := by omega
    rw [s.readBuf_getElem m k hkm h384, t.readBuf_getElem m k hkm h384]
    refine BitVec.eq_of_toNat_eq ?_
    rw [← byte_eq_getElem s h384, ← byte_eq_getElem t h384, h k hkm]

/-- Bytes written to BUF are read back (R26, R140). -/
theorem readBuf_writeBuf (s : State) {b : List Byte} (hb : b.length ≤ 384) :
    (s.writeBuf b).readBuf b.length = b := by
  refine List.ext_getElem (by simp [hb]) fun k _ hk => ?_
  have h384 : k < 384 := by omega
  rw [State.readBuf_getElem _ _ k hk h384, s.writeBuf_buf_getElem b k h384, dif_pos hk]

/-- Writing bytes to BUF changes nothing above them (R26, R140). -/
theorem onlyBytesBelow_writeBuf (s : State) (b : List Byte) :
    onlyBytesBelow b.length s (s.writeBuf b) :=
  ⟨fun _ _ _ => rfl, fun _ hk h => byte_writeBuf_above s h hk, ⟨rfl, rfl, rfl⟩, rfl, rfl, rfl, rfl⟩

/-- Writing bytes to BUF changes nothing exactly when they are the bytes that stand there. -/
theorem bytesKeptFrom_writeBuf_iff (s : State) {b : List Byte} (hb : b.length ≤ 384) :
    bytesKeptFrom 0 s (s.writeBuf b) ↔ b = s.readBuf b.length := by
  have hread := readBuf_eq_iff (s.writeBuf b) s hb
  rw [readBuf_writeBuf s hb] at hread
  rw [hread]
  constructor
  · exact fun h k hk => h k (Nat.zero_le k) (by omega)
  · intro h k _ h384
    obtain hk | hk := Nat.lt_or_ge k b.length
    · exact h k hk
    · exact byte_writeBuf_above s h384 hk

/-- Bit j of field i of the bytes DECODE reads, by the bytes of BUF (R121, R123). -/
theorem testBit_codeFields_readBuf (s : State) {d i j : Nat} (hd : d ≤ 12) (hi : i < 256)
    (hj : j < d) : ((codeFields (s.readBuf (32 * d)) d).getD i 0).testBit j =
      (byte s ((i * d + j) / 8)).testBit ((i * d + j) % 8) := by
  have hlen : (s.readBuf (32 * d)).length = 32 * d := by rw [s.readBuf_length]; omega
  have hbyte := field_bit_div_lt hi hj
  rw [testBit_codeFields hlen hi hj, ← readBuf_getD_toNat s hbyte (by omega)]
  rfl

/-- At d = 12 no field of BUF is reduced exactly when both fields of every three bytes are below 3329
(R142). -/
theorem forall_codeFields_twelve_iff (s : State) :
    (∀ v ∈ codeFields (s.readBuf 384) 12, (v : Int) < decodeModulus 12) ↔
      ∀ m, m < 128 → byte s (3 * m) + 256 * (byte s (3 * m + 1) % 16) < 3329 ∧
        byte s (3 * m + 1) / 16 + 16 * byte s (3 * m + 2) < 3329 := by
  have hpair {m : Nat} (hm : m < 128) :
      (codeFields (s.readBuf 384) 12).getD (2 * m) 0 =
          byte s (3 * m) + 256 * (byte s (3 * m + 1) % 16) ∧
        (codeFields (s.readBuf 384) 12).getD (2 * m + 1) 0 =
          byte s (3 * m + 1) / 16 + 16 * byte s (3 * m + 2) := by
    have h := codeFields_twelve (s.readBuf_length 384) hm
    rwa [readBuf_getD_toNat s (by omega) (by omega), readBuf_getD_toNat s (by omega) (by omega),
      readBuf_getD_toNat s (by omega) (by omega)] at h
  rw [forall_mem_codeFields_iff, decodeModulus_eq_cast, if_neg (by decide)]
  simp only [Nat.cast_lt]
  constructor
  · intro h m hm
    obtain ⟨heven, hodd⟩ := hpair hm
    exact ⟨heven ▸ h (2 * m) (by omega), hodd ▸ h (2 * m + 1) (by omega)⟩
  · intro h i hi
    obtain ⟨heven, hodd⟩ := hpair (m := i / 2) (by omega)
    obtain ⟨hlo, hhi⟩ := h (i / 2) (by omega)
    obtain hi2 | hi2 : i = 2 * (i / 2) ∨ i = 2 * (i / 2) + 1 := by omega
    · rw [hi2, heven]
      exact hlo
    · rw [hi2, hodd]
      exact hhi

/-! ### The two commands -/

theorem exec_encode_inRange (s : State) {ra : RegNum} {d : BitVec 4} (h1 : 1 ≤ d.toNat)
    (h12 : d.toNat ≤ 12) (hr : inRange (s.reg ra) d.toNat) :
    exec (.encode ra d) s = .next (s.writeBuf (byteEncode (s.source ra) d.toNat)) := by
  have hlegal := (legalD_iff d).mpr ⟨h1, h12⟩
  have hrange := (outOfRange_source_eq_false_iff s ra d.toNat).mpr hr
  obtain ⟨hd, _⟩ | ⟨_, ho, _⟩ | ⟨_, _, h⟩ := execEncode_cases s ra d
  · rw [hlegal] at hd; cases hd
  · rw [hrange] at ho; cases ho
  · exact h

theorem exec_decode_legal (s : State) (rd : RegNum) {d : BitVec 4} (h1 : 1 ≤ d.toNat)
    (h12 : d.toNat ≤ 12) : exec (.decode rd d) s =
      .next (s.setDest rd (byteDecode (s.readBuf (32 * d.toNat)) d.toNat)) := by
  have hlegal := (legalD_iff d).mpr ⟨h1, h12⟩
  obtain ⟨hd, _⟩ | ⟨_, h⟩ := execDecode_cases s rd d
  · rw [hlegal] at hd; cases hd
  · exact h

/-- ENCODE of what DECODE has left completes. -/
theorem exec_encode_of_decoded (s : State) (rd : RegNum) (bytes : List Byte) {d : BitVec 4}
    (h1 : 1 ≤ d.toNat) (h12 : d.toNat ≤ 12) :
    exec (.encode rd d) (s.setDest rd (byteDecode bytes d.toNat)) =
      .next ((s.setDest rd (byteDecode bytes d.toNat)).writeBuf
        (byteEncode (byteDecode bytes d.toNat) d.toNat)) := by
  have hreg := s.setDest_reg_same rd (byteDecode bytes d.toNat)
  rw [exec_encode_inRange _ h1 h12 (hreg ▸ inRange_ofInts_byteDecode bytes h12), State.source, hreg,
    ints_ofInts_byteDecode bytes h12]

/-- Two commands one after the other, each completing. -/
theorem execAll_pair {i j : Instr} {s t u : State} (hi : exec i s = .next t)
    (hj : exec j t = .next u) : execAll [i, j] s = .next u := by
  simp [execAll, hi, hj]

/-- The two commands that check their source take OPERAND_RANGE when the check fails (R140, R152). -/
theorem exec_operandRange (s : State) {i : Instr} {rd ra : RegNum} {d : BitVec 4}
    (hi : i = .encode ra d ∨ i = .decompress rd ra d) (hd : legalD d = true)
    (ho : outOfRange (s.source ra) d.toNat = true) :
    exec i s = .next (s.raiseFault .operandRange (encode i)) := by
  obtain rfl | rfl := hi
  · obtain ⟨hd', _⟩ | ⟨_, _, h⟩ | ⟨_, ho', _⟩ := execEncode_cases s ra d
    · rw [hd] at hd'; cases hd'
    · exact h
    · rw [ho] at ho'; cases ho'
  · obtain ⟨hd', _⟩ | ⟨_, _, h⟩ | ⟨_, ho', _⟩ := execDecompress_cases s rd ra d
    · rw [hd] at hd'; cases hd'
    · exact h
    · rw [ho] at ho'; cases ho'

end Sys2Proof.Machine
end

section
/-!
The statements on the codec (41_codec.md).
-/

namespace Sys2Proof.Machine

open Sys2Proof.Claims

/-- Settles O13: the wide cell fails the check of the source. -/
theorem wideCellFaultsAndWritesOnlyTheRecord :
    Obligations.WideCellFaultsAndWritesOnlyTheRecord := by
  intro rd ra d s k h1 h12 hk hwide i hi
  have hlegal := (legalD_iff d).mpr ⟨h1, h12.le⟩
  have hrange : outOfRange (s.source ra) d.toNat = true := by
    rw [← Bool.not_eq_false, outOfRange_source_eq_false_iff]
    exact fun h => absurd (h k hk h12) hwide.not_gt
  exact ⟨_, exec_operandRange s (rd := rd) (by simpa using hi) hlegal hrange,
    onlyRecorded_raiseFault s _ _⟩

/-- Settles O30: bit 8k+j of the bytes written is bit (8k+j) mod d of field (8k+j) div d, and that
field is a cell. -/
theorem encodePacksCellBitsIntoBuf : Obligations.EncodePacksCellBitsIntoBuf := by
  intro ra d s h1 h12 hr
  have hlen := byteEncode_length (s.source ra) d.toNat (s.source_length ra)
  refine ⟨_, exec_encode_inRange s h1 h12 hr, fun k j hk hj => ?_, ?_⟩
  · have hcell : (8 * k + j) / d.toNat < 256 := by
      rw [Nat.div_lt_iff_lt_mul h1]
      omega
    have hread : (s.writeBuf (byteEncode (s.source ra) d.toNat)).readBuf (32 * d.toNat) =
        byteEncode (s.source ra) d.toNat := by
      rw [← hlen]
      exact readBuf_writeBuf s (by omega)
    have hbit := testBit_codeFields_readBuf (s.writeBuf (byteEncode (s.source ra) d.toNat)) h12
      hcell (Nat.mod_lt (8 * k + j) h1)
    rw [hread, codeFields_byteEncode_source s h12 hr hcell, Nat.div_add_mod',
      show (8 * k + j) / 8 = k by omega, show (8 * k + j) % 8 = j by omega] at hbit
    exact hbit.symm
  · rw [← hlen]
    exact onlyBytesBelow_writeBuf s _

/-- Settles O31: each cell is its field, and the field is the sum of its bits. -/
theorem decodeUnpacksBufIntoCells : Obligations.DecodeUnpacksBufIntoCells := by
  intro rd d s h1 h12
  refine ⟨_, exec_decode_legal s rd h1 h12, fun i hi => ?_, onlyDest_setDest s rd _⟩
  have hfield := codeFields_getD_lt (s.readBuf (32 * d.toNat)) d.toNat hi
  rw [s.setDest_reg_same, cell_ofInts_byteDecode _ h12 hi, ← Nat.mod_eq_of_lt hfield,
    ← sum_testBit]
  congr 1
  refine Finset.sum_congr rfl fun j hj => ?_
  rw [testBit_codeFields_readBuf s h12 hi (Finset.mem_range.mp hj)]

/-- Settles O32: DECODE reads the first 32*d bytes of BUF and no more. -/
theorem decodeIgnoresBytesAboveItsFields : Obligations.DecodeIgnoresBytesAboveItsFields := by
  intro rd rd' d s s' t t' h1 h12 hbytes ht ht' k _
  have hread := (readBuf_eq_iff s s' (by omega : 32 * d.toNat ≤ 384)).mpr hbytes
  cases (exec_decode_legal s rd h1 h12).symm.trans ht
  cases (exec_decode_legal s' rd' h1 h12).symm.trans ht'
  rw [s.setDest_reg_same, s'.setDest_reg_same, hread]

/-- Settles O33: DECODE reads the bytes that ENCODE wrote, and ByteDecode undoes ByteEncode. -/
theorem decodeAfterEncodeRestoresTheRegister :
    Obligations.DecodeAfterEncodeRestoresTheRegister := by
  intro rd ra d s h1 h12 hr hf
  have hsrc := s.source_length ra
  have hlen := byteEncode_length (s.source ra) d.toNat hsrc
  have hmod : ∀ v ∈ s.source ra, 0 ≤ v ∧ v < decodeModulus d.toNat := by
    refine (forall_mem_source_iff s ra _).mpr fun k hk => ⟨Int.natCast_nonneg _, ?_⟩
    rw [decodeModulus_eq_cast, Nat.cast_lt]
    split
    · next hlt => exact hr k hk hlt
    · next hge => exact hf (by omega) k hk
  refine ⟨_, execAll_pair (exec_encode_inRange s h1 h12 hr) (exec_decode_legal _ rd h1 h12), rfl,
    fun k _ => ?_⟩
  rw [State.setDest_reg_same, ← hlen, readBuf_writeBuf s (by omega),
    byteDecode_byteEncode h12 hsrc hmod, State.source, ofInts_ints]

/-- Settles O34: ENCODE writes the bytes that DECODE read exactly when no field was reduced, which
below 12 bits none is. -/
theorem encodeAfterDecodeRestoresTheBytes : Obligations.EncodeAfterDecodeRestoresTheBytes := by
  intro rd d s h1 h12
  generalize hb : s.readBuf (32 * d.toNat) = bytes
  have hbytes : bytes.length = 32 * d.toNat := by rw [← hb, s.readBuf_length]; omega
  have hdecode := exec_decode_legal s rd h1 h12
  rw [hb] at hdecode
  have hlen := byteEncode_length _ d.toNat (byteDecode_length bytes d.toNat)
  have hkept : bytesKeptFrom 0 s ((s.setDest rd (byteDecode bytes d.toNat)).writeBuf
      (byteEncode (byteDecode bytes d.toNat) d.toNat)) ↔
      ∀ v ∈ codeFields bytes d.toNat, (v : Int) < decodeModulus d.toNat := by
    have hread : (s.setDest rd (byteDecode bytes d.toNat)).readBuf (32 * d.toNat) = bytes := hb
    have hsame := bytesKeptFrom_writeBuf_iff (s.setDest rd (byteDecode bytes d.toNat))
      (hlen.le.trans (by omega))
    rw [hlen, hread] at hsame
    exact hsame.trans (byteEncode_byteDecode_iff h12 hbytes)
  refine ⟨_, execAll_pair hdecode (exec_encode_of_decoded s rd bytes h1 h12), rfl, fun hlt => ?_,
    fun heq => ?_⟩
  · rw [hkept, decodeModulus_of_lt hlt]
    exact fun v hv => Nat.cast_lt.mpr (codeFields_lt hv)
  · rw [hkept, ← forall_codeFields_twelve_iff, ← hb, heq]

end Sys2Proof.Machine
end

section
/-!
SUPPORT. Lossy compression: how far round_nearest is from its quotient, what follows for compress1 and
decompress1 (R119, R124, R125), and the two commands cell by cell (R151, R152).
-/

namespace Sys2Proof.Machine

open Sys2Proof.Claims

/-! ### Rounding -/

/-- round_nearest is the only integer r with -m <= 2*a - 2*m*r < m: halves go up (R118, R119). -/
theorem roundNearest_eq_iff (a r : Int) {m : Int} (hm : 0 < m) :
    roundNearest a m = r ↔ -m ≤ 2 * a - 2 * m * r ∧ 2 * a - 2 * m * r < m := by
  rw [roundNearest, Int.ediv_eq_iff_of_pos (by omega : 0 < 2 * m)]
  constructor <;> rintro ⟨hlo, hhi⟩ <;> constructor <;> linarith

/-- Adding a multiple of the divisor adds the factor to the rounding. -/
theorem roundNearest_add_mul (a k : Int) {m : Int} (hm : 0 < m) :
    roundNearest (a + m * k) m = roundNearest a m + k := by
  obtain ⟨hlo, hhi⟩ := (roundNearest_eq_iff a _ hm).mp rfl
  rw [roundNearest_eq_iff _ _ hm]
  constructor <;> linarith

/-- compress1 by the rational rounding (R124). -/
theorem compress1_eq_roundQ (x : Int) (d : Nat) :
    compress1 x d = roundQ ((2 : ℚ) ^ d * x / 3329) % 2 ^ d := by
  have h := roundQ_div (2 ^ d * x) (m := 3329) (by decide)
  push_cast at h
  rw [h, compress1]

/-- decompress1 by the rational rounding (R125). -/
theorem decompress1_eq_roundQ (y : Int) (d : Nat) :
    decompress1 y d = roundQ (3329 * (y : ℚ) / 2 ^ d) := by
  have h := roundQ_div (3329 * y) (m := 2 ^ d) (by positivity)
  push_cast at h
  rw [h, decompress1]

/-! ### The ranges of compress1 and decompress1 -/

theorem two_pow_le_4096 {d : Nat} (hd : d ≤ 12) : (2 : Int) ^ d ≤ 4096 :=
  pow_le_pow_right₀ (n := 12) (by decide : (1 : Int) ≤ 2) hd

theorem compress1_nonneg (x : Int) (d : Nat) : 0 ≤ compress1 x d :=
  Int.emod_nonneg _ (by positivity)

theorem compress1_lt (x : Int) (d : Nat) : compress1 x d < 2 ^ d :=
  Int.emod_lt_of_pos _ (by positivity)

theorem decompress1_nonneg {y : Int} (d : Nat) (h : 0 ≤ y) : 0 ≤ decompress1 y d := by
  unfold decompress1 roundNearest
  positivity

/-- The rounding never reaches 3329: y falls short of 2^d by one, and half of 2^d is below 3329 (R125). -/
theorem decompress1_le {y : Int} {d : Nat} (hd : d ≤ 12) (h : y < 2 ^ d) :
    decompress1 y d ≤ 3328 := by
  have hM := two_pow_le_4096 hd
  refine Int.lt_add_one_iff.mp (Int.ediv_lt_of_lt_mul (by positivity) ?_)
  linarith

/-! ### The two round trips on one value (R153) -/

/-- decompress1 sends values equal modulo 2^d to values equal modulo 3329, so the final reduction of
compress1 is a turn around the circle of residues. -/
theorem decompress1_emod_two_pow (y : Int) (d : Nat) :
    decompress1 (y % 2 ^ d) d ≡ decompress1 y d [ZMOD 3329] := by
  have hturn : decompress1 y d = decompress1 (y % 2 ^ d) d + 3329 * (y / 2 ^ d) := by
    have hy : 3329 * y = 3329 * (y % 2 ^ d) + 2 ^ d * (3329 * (y / 2 ^ d)) := by
      linarith [Int.emod_add_mul_ediv y (2 ^ d)]
    rw [decompress1, decompress1, ← roundNearest_add_mul _ _ (by positivity), ← hy]
  rw [hturn]
  exact (Int.modEq_add_fac_self).symm

/-- The distance around the circle is no more than the distance to any integer of the residue. -/
theorem circleDistance_le_abs_sub {x z z' : Int} (h : z ≡ z' [ZMOD 3329]) :
    circleDistance x z ≤ |x - z'| := by
  have hfwd : (x - z) % 3329 = (x - z') % 3329 := h.sub_left x
  have hbwd : (z - x) % 3329 = (z' - x) % 3329 := h.sub_right x
  rw [circleDistance, hfwd, hbwd]
  obtain ⟨habs, _⟩ | ⟨habs, _⟩ := abs_cases (x - z')
  · exact (min_le_left _ _).trans (by omega)
  · exact (min_le_right _ _).trans (by omega)

/-- Without the reduction modulo 2^d the round trip errs by at most half a step of each rounding: 2^(d+1)
times the error is at most 3329 + 2^d. -/
theorem abs_sub_decompress1_roundNearest_le (x : Int) (d : Nat) :
    |x - decompress1 (roundNearest (2 ^ d * x) 3329) d| ≤ roundNearest 3329 (2 ^ (d + 1)) := by
  have hM : (0 : Int) < 2 ^ d := by positivity
  obtain ⟨hylo, hyhi⟩ := (roundNearest_eq_iff (2 ^ d * x) _ (by decide : (0 : Int) < 3329)).mp rfl
  generalize roundNearest (2 ^ d * x) 3329 = y at *
  obtain ⟨hzlo, hzhi⟩ := (roundNearest_eq_iff (3329 * y) (decompress1 y d) hM).mp rfl
  rw [roundNearest, Int.le_ediv_iff_mul_le (by positivity), pow_succ]
  obtain ⟨habs, _⟩ | ⟨habs, _⟩ := abs_cases (x - decompress1 y d) <;> rw [habs] <;> linarith

/-- R153, first half: compress1 and then decompress1 stay within the bound, for every integer. -/
theorem circleDistance_decompress1_compress1_le (x : Int) (d : Nat) :
    circleDistance x (decompress1 (compress1 x d) d) ≤ roundNearest 3329 (2 ^ (d + 1)) :=
  (circleDistance_le_abs_sub (decompress1_emod_two_pow _ d)).trans
    (abs_sub_decompress1_roundNearest_le x d)

/-- R153, second half: the error of decompress1, scaled by 2^d / 3329, is below one half as soon as 2^d
is below 3329. -/
theorem compress1_decompress1 {y : Int} {d : Nat} (hd : d ≤ 11) (h0 : 0 ≤ y) (h1 : y < 2 ^ d) :
    compress1 (decompress1 y d) d = y := by
  have hM : (2 : Int) ^ d ≤ 2 ^ 11 := pow_le_pow_right₀ (by decide) hd
  obtain ⟨hlo, hhi⟩ :=
    (roundNearest_eq_iff (3329 * y) (decompress1 y d) (by positivity : (0 : Int) < 2 ^ d)).mp rfl
  have hround : roundNearest (2 ^ d * decompress1 y d) 3329 = y := by
    rw [roundNearest_eq_iff _ _ (by decide)]
    constructor <;> linarith
  rw [compress1, hround, Int.emod_eq_of_lt h0 h1]

/-! ### The two commands -/

/-- A destination written from a source value by value holds the images that fit in a cell. -/
theorem cell_setDest_map (s : State) (rd ra : RegNum) (g : Int → Int) {k : Nat} (hk : k < 256)
    (h0 : 0 ≤ g (cell (s.reg ra) k)) (h1 : g (cell (s.reg ra) k) < 4096) :
    (cell ((s.setDest rd ((s.source ra).map g)).reg rd) k : Int) = g (cell (s.reg ra) k) := by
  have hentry : entry ((s.source ra).map g) k = g (cell (s.reg ra) k) := by
    rw [entry_map g _ k (by rwa [s.source_length]), entry_source_eq_cell s ra hk]
  rw [s.setDest_reg_same, cell_eq_getElem _ hk, ofInts_toNat _ k hk (hentry ▸ h0) (hentry ▸ h1),
    hentry]

/-- COMPRESS with a legal d completes whatever the source holds (R151). -/
theorem compress_writesDest (s : State) (rd ra : RegNum) {d : BitVec 4} (h1 : 1 ≤ d.toNat)
    (h12 : d.toNat ≤ 12) : writesDest (.compress rd ra d) rd s fun v => ∀ k, k < 256 →
      (cell v k : Int) = compress1 (cell (s.reg ra) k) d.toNat := by
  have hlegal := (legalD_iff d).mpr ⟨h1, h12⟩
  obtain ⟨hd, _⟩ | ⟨_, h⟩ := execCompress_cases s rd ra d
  · rw [hlegal] at hd; cases hd
  · exact ⟨_, h, fun k hk => cell_setDest_map s rd ra (compress1 · d.toNat) hk
      (compress1_nonneg _ _) ((compress1_lt _ _).trans_le (two_pow_le_4096 h12)),
      onlyDest_setDest s rd _⟩

/-- Every value of a source in range decompresses to a field value (R125, R152). -/
theorem decompress1_cell_range {v : RingReg} {d k : Nat} (hd : d ≤ 12) (hr : inRange v d)
    (hk : k < 256) : 0 ≤ decompress1 (cell v k) d ∧ decompress1 (cell v k) d ≤ 3328 :=
  ⟨decompress1_nonneg d (Int.natCast_nonneg _),
    decompress1_le hd (by exact_mod_cast cell_lt_of_inRange hd hr hk)⟩

/-- DECOMPRESS with a legal d and a source in range completes (R152). -/
theorem decompress_writesDest (s : State) (rd : RegNum) {ra : RegNum} {d : BitVec 4}
    (h1 : 1 ≤ d.toNat) (h12 : d.toNat ≤ 12) (hr : inRange (s.reg ra) d.toNat) :
    writesDest (.decompress rd ra d) rd s fun v => ∀ k, k < 256 →
      (cell v k : Int) = decompress1 (cell (s.reg ra) k) d.toNat := by
  have hlegal := (legalD_iff d).mpr ⟨h1, h12⟩
  have hrange := (outOfRange_source_eq_false_iff s ra d.toNat).mpr hr
  obtain ⟨hd, _⟩ | ⟨_, ho, _⟩ | ⟨_, _, h⟩ := execDecompress_cases s rd ra d
  · rw [hlegal] at hd; cases hd
  · rw [hrange] at ho; cases ho
  · refine ⟨_, h, fun k hk => ?_, onlyDest_setDest s rd _⟩
    obtain ⟨hlo, hhi⟩ := decompress1_cell_range h12 hr hk
    exact cell_setDest_map s rd ra (decompress1 · d.toNat) hk hlo (hhi.trans_lt (by decide))

/-- A cell that COMPRESS has written is below 2^d, as DECOMPRESS with the same d asks (R22, R201). -/
theorem cell_lt_of_eq_compress1 {v : RingReg} {x : Int} {d k : Nat}
    (h : (cell v k : Int) = compress1 x d) : cell v k < 2 ^ d := by
  have hlt := h ▸ compress1_lt x d
  exact_mod_cast hlt

end Sys2Proof.Machine
end

section
/-!
The statements on lossy compression (42_compress.md).
-/

namespace Sys2Proof.Machine

open Sys2Proof.Claims

/-- Settles O37: compress1 is the rational rounding, reduced. -/
theorem compressRoundsTheExactQuotient : Obligations.CompressRoundsTheExactQuotient := by
  intro rd ra d s h1 h12
  obtain ⟨t, ht, hcell, hframe⟩ := compress_writesDest s rd ra h1 h12
  refine ⟨t, ht, fun k hk => ⟨?_, cell_lt_of_eq_compress1 (hcell k hk)⟩, hframe⟩
  rw [hcell k hk, compress1_eq_roundQ, Int.cast_natCast]

/-- Settles O38: decompress1 is the rational rounding, and stays in the field without a reduction. -/
theorem decompressRoundsTheExactQuotient : Obligations.DecompressRoundsTheExactQuotient := by
  intro rd ra d s h1 h12 hr
  obtain ⟨t, ht, hcell, hframe⟩ := decompress_writesDest s rd h1 h12 hr
  refine ⟨t, ht, fun k hk => ⟨?_, ?_⟩, hframe⟩
  · rw [hcell k hk, decompress1_eq_roundQ, Int.cast_natCast]
  · have hle := (decompress1_cell_range h12 hr hk).2
    rw [← hcell k hk] at hle
    exact_mod_cast hle

/-- Settles O39: what COMPRESS leaves is in range for DECOMPRESS, and each value makes the round trip of
R153. -/
theorem lossyRoundTripStaysWithinTheBound : Obligations.LossyRoundTripStaysWithinTheBound := by
  intro r1 r2 ra d s h1 h12 _
  obtain ⟨t, ht, hcomp, _, _, ⟨htfault, _⟩, _⟩ := compress_writesDest s r1 ra h1 h12
  have hr : inRange (t.reg r1) d.toNat := fun k hk _ => cell_lt_of_eq_compress1 (hcomp k hk)
  obtain ⟨u, hu, hdec, _, _, ⟨hufault, _⟩, _⟩ := decompress_writesDest t r2 h1 h12 hr
  refine ⟨u, execAll_pair ht hu, hufault.trans htfault, fun k hk => ?_⟩
  rw [hdec k hk, hcomp k hk]
  exact circleDistance_decompress1_compress1_le _ _

/-- Settles O40: below d = 12 compress1 undoes decompress1. -/
theorem compressAfterDecompressIsExact : Obligations.CompressAfterDecompressIsExact := by
  intro r1 r2 ra d s h1 h11 hr
  have h12 : d.toNat ≤ 12 := h11.trans (by decide)
  obtain ⟨t, ht, hdec, _⟩ := decompress_writesDest s r1 h1 h12 hr
  obtain ⟨u, hu, hcomp, _⟩ := compress_writesDest t r2 r1 h1 h12
  refine ⟨u, execAll_pair ht hu, fun k hk => ?_⟩
  have hlt : (cell (s.reg ra) k : Int) < 2 ^ d.toNat := by
    exact_mod_cast cell_lt_of_inRange h12 hr hk
  have heq := hcomp k hk
  rw [hdec k hk, compress1_decompress1 h11 (Int.natCast_nonneg _) hlt] at heq
  exact_mod_cast heq

end Sys2Proof.Machine
end

section
/-!
SUPPORT. The rounds of the transforms with every butterfly at once (R164, R242): the entries of a
round by lanes, and both networks as runs of rounds at once.
-/

namespace Sys2Proof.Machine

open Sys2Proof.Claims

/-! ### Entries of sequences -/

theorem entry_take (f : List Int) {len k : Nat} (h : k < len) : entry (f.take len) k = entry f k := by
  simp [entry, List.getD, h]

theorem entry_drop (f : List Int) (m k : Nat) : entry (f.drop m) k = entry f (m + k) := by
  simp [entry, List.getD]

theorem entry_append_left {as : List Int} (bs : List Int) {k : Nat} (h : k < as.length) :
    entry (as ++ bs) k = entry as k :=
  List.getD_append as bs 0 k h

theorem entry_append_right {as : List Int} (bs : List Int) {k : Nat} (h : as.length ≤ k) :
    entry (as ++ bs) k = entry bs (k - as.length) :=
  List.getD_append_right as bs 0 k h

/-- A sequence made of 256 values. -/
theorem entry_map_range (v : Nat → Int) {k : Nat} (h : k < 256) :
    entry ((List.range 256).map v) k = v k := by
  simp [entry, h]

theorem ext_entry {f g : List Int} (hf : f.length = 256) (hg : g.length = 256)
    (h : ∀ k, k < 256 → entry f k = entry g k) : f = g := by
  refine List.ext_getElem (hf.trans hg.symm) fun k hkf hkg => ?_
  have hk := h k (hf ▸ hkf)
  rwa [entry, entry, List.getD_eq_getElem _ _ hkf, List.getD_eq_getElem _ _ hkg] at hk

/-! ### One round -/

/-- The new value of cell k in a round of block size len: the lower half of a block takes `g` of its
pair, the upper half `h`. -/
def pairValue (g h : Int → Int → Int) (len : Nat) (f : List Int) (k : Nat) : Int :=
  if k % (2 * len) < len then g (entry f k) (entry f (k + len)) else h (entry f (k - len)) (entry f k)

/-- A block does not see the blocks before it. -/
theorem pairValue_drop (g h : Int → Int → Int) (len : Nat) (f : List Int) (k : Nat) :
    pairValue g h len (f.drop (2 * len)) k = pairValue g h len f (2 * len + k) := by
  rw [pairValue, pairValue, Nat.add_mod_left]
  split
  · simp only [entry_drop, Nat.add_assoc]
  · next hk =>
    have hle : len ≤ k := (Nat.not_lt.mp hk).trans (Nat.mod_le k (2 * len))
    simp only [entry_drop, Nat.add_sub_assoc hle]

/-- The values of the first block of a round. -/
theorem entry_firstBlock (g h : Int → Int → Int) {len : Nat} (f : List Int)
    (h2 : 2 * len ≤ f.length) {k : Nat} (hk : k < 2 * len) :
    entry (List.zipWith g (f.take len) ((f.drop len).take len)
        ++ List.zipWith h (f.take len) ((f.drop len).take len)) k
      = pairValue g h len f k := by
  have hlo : (f.take len).length = len := by rw [List.length_take]; omega
  have hhi : ((f.drop len).take len).length = len := by
    rw [List.length_take, List.length_drop]; omega
  have hzip (q : Int → Int → Int) :
      (List.zipWith q (f.take len) ((f.drop len).take len)).length = len := by
    rw [List.length_zipWith, hlo, hhi, Nat.min_self]
  have hentry (q : Int → Int → Int) {j : Nat} (hj : j < len) :
      entry (List.zipWith q (f.take len) ((f.drop len).take len)) j
        = q (entry f j) (entry f (len + j)) := by
    rw [entry_zipWith q _ _ j (hlo.symm ▸ hj) (hhi.symm ▸ hj), entry_take _ hj, entry_take _ hj,
      entry_drop]
  rw [pairValue, Nat.mod_eq_of_lt hk]
  split
  · next hlt => rw [entry_append_left _ ((hzip g).symm ▸ hlt), hentry g hlt, Nat.add_comm]
  · next hge =>
    have hle := Nat.not_lt.mp hge
    rw [entry_append_right _ ((hzip g).symm ▸ hle), hzip g, hentry h (by omega),
      Nat.add_sub_cancel' hle]

/-- The value of every cell after a round by lanes: group k / (2*len) has the counter after as many
groups. -/
theorem entry_lanesRound (g h : Int → Int → Int → Int) (next : Nat → Nat) (len groups i : Nat)
    (f : List Int) (hf : f.length = groups * (2 * len)) {k : Nat} (hk : k < groups * (2 * len)) :
    entry (lanesRound g h next len groups i f) k =
      pairValue (g (zeta (counterAfter next (k / (2 * len)) i)))
        (h (zeta (counterAfter next (k / (2 * len)) i))) len f k := by
  induction groups generalizing i f k with
  | zero => omega
  | succ groups ih =>
    rw [Nat.succ_mul] at hf hk
    have h2 : 2 * len ≤ f.length := by omega
    have hblock : (List.zipWith (g (zeta i)) (f.take len) ((f.drop len).take len)
        ++ List.zipWith (h (zeta i)) (f.take len) ((f.drop len).take len)).length = 2 * len := by
      simp only [List.length_append, List.length_zipWith, List.length_take, List.length_drop]
      omega
    rw [lanesRound]
    obtain hlt | hge := Nat.lt_or_ge k (2 * len)
    · rw [entry_append_left _ (hblock.symm ▸ hlt), entry_firstBlock _ _ f h2 hlt,
        Nat.div_eq_of_lt hlt, counterAfter]
    · obtain ⟨j, rfl⟩ := Nat.exists_eq_add_of_le hge
      have hpos : 0 < 2 * len := by
        by_contra hzero
        simp [Nat.eq_zero_of_not_pos hzero] at hk
      rw [entry_append_right _ (hblock.symm ▸ hge), hblock, Nat.add_sub_cancel_left,
        ih (next i) (f.drop (2 * len)) (by rw [List.length_drop]; omega) (by omega),
        pairValue_drop, Nat.add_div_left _ hpos, counterAfter]

@[simp] theorem forwardAtOnce_length (f : List Int) (len : Nat) :
    (forwardAtOnce f len).length = 256 := by
  simp [forwardAtOnce]

@[simp] theorem inverseAtOnce_length (f : List Int) (len : Nat) :
    (inverseAtOnce f len).length = 256 := by
  simp [inverseAtOnce]

theorem entry_forwardAtOnce (f : List Int) (len : Nat) {k : Nat} (hk : k < 256) :
    entry (forwardAtOnce f len) k =
      pairValue (fun u v => modq (u + zeta (128 / len + k / (2 * len)) * v))
        (fun u v => modq (u - zeta (128 / len + k / (2 * len)) * v)) len f k :=
  entry_map_range _ hk

theorem entry_inverseAtOnce (f : List Int) (len : Nat) {k : Nat} (hk : k < 256) :
    entry (inverseAtOnce f len) k =
      pairValue (fun u v => modq (u + v))
        (fun u v => modq (zeta (256 / len - 1 - k / (2 * len)) * (v - u))) len f k :=
  entry_map_range _ hk

/-- A forward round by lanes, its counter starting at 128/len, is the round at once (R164). -/
theorem lanesRound_eq_forwardAtOnce {len : Nat} (f : List Int) (hf : f.length = 256)
    (hl : 128 / len * (2 * len) = 256) :
    lanesRound fwdLo fwdHi (· + 1) len (128 / len) (128 / len) f = forwardAtOnce f len := by
  have hlo (z : Int) : fwdLo z = fun u v => modq (u + z * v) := by
    funext u v; simp [fwdLo, modq]
  have hhi (z : Int) : fwdHi z = fun u v => modq (u - z * v) := by
    funext u v; simp [fwdHi, modq]
  refine ext_entry (lanesRound_256 _ _ _ _ _ _ f hf hl) (forwardAtOnce_length f len) fun k hk => ?_
  rw [entry_lanesRound _ _ _ _ _ _ f (hf.trans hl.symm) (hl.symm ▸ hk), entry_forwardAtOnce f len hk,
    counterAfter_succ, hlo, hhi]

/-- An inverse round by lanes, its counter starting at 256/len - 1, is the round at once (R164). -/
theorem lanesRound_eq_inverseAtOnce {len : Nat} (f : List Int) (hf : f.length = 256)
    (hl : 128 / len * (2 * len) = 256) :
    lanesRound invLo invHi (· - 1) len (128 / len) (256 / len - 1) f = inverseAtOnce f len := by
  refine ext_entry (lanesRound_256 _ _ _ _ _ _ f hf hl) (inverseAtOnce_length f len) fun k hk => ?_
  rw [entry_lanesRound _ _ _ _ _ _ f (hf.trans hl.symm) (hl.symm ▸ hk), entry_inverseAtOnce f len hk,
    counterAfter_pred]
  rfl

/-! ### The networks -/

/-- Rounds that agree on sequences of 256 values, and keep their number, agree in any run. -/
theorem foldl_rounds_congr {p p' : List Int → Nat → List Int} {lens : List Nat}
    (heq : ∀ len ∈ lens, ∀ f, f.length = 256 → p f len = p' f len)
    (hlen : ∀ f len, (p' f len).length = 256) (f : List Int) (hf : f.length = 256) :
    lens.foldl p f = lens.foldl p' f := by
  induction lens generalizing f with
  | nil => rfl
  | cons len lens ih =>
    rw [List.foldl_cons, List.foldl_cons, heq len List.mem_cons_self f hf]
    exact ih (fun l hl => heq l (List.mem_cons_of_mem _ hl)) _ (hlen f len)

/-- The rounds of NTT at once, in their order (R161). -/
def forwardRounds (f : List Int) : List Int := [128, 64, 32, 16, 8, 4, 2].foldl forwardAtOnce f

/-- The rounds of INTT at once, in their order, before the scaling (R163). -/
def inverseRounds (f : List Int) : List Int := [2, 4, 8, 16, 32, 64, 128].foldl inverseAtOnce f

theorem inverseRounds_length (f : List Int) : (inverseRounds f).length = 256 :=
  inverseAtOnce_length _ 128

theorem nttNetwork_eq_forwardRounds (f : List Int) (hf : f.length = 256) :
    nttNetwork f = forwardRounds f := by
  have hcover : ∀ len ∈ [128, 64, 32, 16, 8, 4, 2], 128 / len * (2 * len) = 256 := by decide
  rw [nttNetwork_eq_lanes f hf]
  exact foldl_rounds_congr (fun len hm f hf => lanesRound_eq_forwardAtOnce f hf (hcover len hm))
    forwardAtOnce_length f hf

theorem inttNetwork_eq_inverseRounds (f : List Int) (hf : f.length = 256) :
    inttNetwork f = (inverseRounds f).map fun v => modq (v * 3303) := by
  have hcover : ∀ len ∈ [2, 4, 8, 16, 32, 64, 128], 128 / len * (2 * len) = 256 := by decide
  have hrounds := foldl_rounds_congr
    (fun len hm f hf => lanesRound_eq_inverseAtOnce f hf (hcover len hm)) inverseAtOnce_length f hf
  rw [inttNetwork_eq_lanes f hf, inttLanes, hrounds]
  rfl

end Sys2Proof.Machine
end

section
/-!
SUPPORT. The powers of 17 that the rounds multiply by, modulo 3329: how the twiddles of R116 and the
twists of R117 come from one another.
-/

namespace Sys2Proof.Machine

/-! ### Bit reversal of neighbouring indices -/

/-- One more bit at the low end of an index becomes the highest bit of the reversal; the others go
down by one place. -/
theorem bitrev7_bit (i : Nat) {b : Nat} (hb : b < 2) :
    bitrev7 (2 * i + b) = b * 64 + i % 2 * 32 + i / 2 % 2 * 16 + i / 4 % 2 * 8 + i / 8 % 2 * 4
      + i / 16 % 2 * 2 + i / 32 % 2 := by
  have h1 : (2 * i + b) % 2 = b := by omega
  have h2 : (2 * i + b) / 2 = i := by omega
  have h4 : (2 * i + b) / 4 = i / 2 := by omega
  have h8 : (2 * i + b) / 8 = i / 4 := by omega
  have h16 : (2 * i + b) / 16 = i / 8 := by omega
  have h32 : (2 * i + b) / 32 = i / 16 := by omega
  have h64 : (2 * i + b) / 64 = i / 32 := by omega
  rw [bitrev7, h1, h2, h4, h8, h16, h32, h64]

/-- The reversal of an index below 64 ends in 0, and that bit is the one its double drops. -/
theorem bitrev7_eq_two_mul {i : Nat} (h : i < 64) : bitrev7 i = 2 * bitrev7 (2 * i) := by
  rw [← Nat.add_zero (2 * i), bitrev7_bit i two_pos, bitrev7, Nat.div_eq_of_lt h]
  ring

theorem bitrev7_two_mul_add_one (i : Nat) : bitrev7 (2 * i + 1) = 64 + bitrev7 (2 * i) := by
  rw [bitrev7_bit i one_lt_two, ← Nat.add_zero (2 * i), bitrev7_bit i two_pos]
  ring

theorem bitrev7_add_64 {i : Nat} (h : i < 64) : bitrev7 (64 + i) = bitrev7 i + 1 := by
  have h1 : (64 + i) % 2 = i % 2 := by omega
  have h2 : (64 + i) / 2 % 2 = i / 2 % 2 := by omega
  have h4 : (64 + i) / 4 % 2 = i / 4 % 2 := by omega
  have h8 : (64 + i) / 8 % 2 = i / 8 % 2 := by omega
  have h16 : (64 + i) / 16 % 2 = i / 16 % 2 := by omega
  have h32 : (64 + i) / 32 % 2 = i / 32 % 2 := by omega
  have h64 : (64 + i) / 64 = 1 := by omega
  rw [bitrev7, bitrev7, h1, h2, h4, h8, h16, h32, h64, Nat.div_eq_of_lt h]

/-- Indices that lie symmetrically in a row of the splitting tree, 2^j to 2^(j+1) - 1, have
complementary reversals: their children do when they do. -/
theorem bitrev7_add_bitrev7_mirror {j g : Nat} (hj : j < 7) (hg : g < 2 ^ j) :
    bitrev7 (2 * 2 ^ j - 1 - g) + bitrev7 (2 ^ j + g) = 128 := by
  induction j generalizing g with
  | zero =>
    obtain rfl : g = 0 := by simpa using hg
    decide
  | succ j ih =>
    have hrow : 2 ^ (j + 1) = 2 * 2 ^ j := Nat.pow_succ'
    have h64 : 2 ^ j ≤ 2 ^ 5 := Nat.pow_le_pow_right two_pos (by omega)
    rw [hrow] at hg ⊢
    obtain ⟨h, rfl | rfl⟩ := Nat.even_or_odd' g
    · have hparent := ih (by omega) (by omega : h < 2 ^ j)
      rw [show 2 * (2 * 2 ^ j) - 1 - 2 * h = 2 * (2 * 2 ^ j - 1 - h) + 1 by omega,
        show 2 * 2 ^ j + 2 * h = 2 * (2 ^ j + h) by omega, bitrev7_two_mul_add_one]
      rw [bitrev7_eq_two_mul (by omega : 2 * 2 ^ j - 1 - h < 64),
        bitrev7_eq_two_mul (by omega : 2 ^ j + h < 64)] at hparent
      omega
    · have hparent := ih (by omega) (by omega : h < 2 ^ j)
      rw [show 2 * (2 * 2 ^ j) - 1 - (2 * h + 1) = 2 * (2 * 2 ^ j - 1 - h) by omega,
        show 2 * 2 ^ j + (2 * h + 1) = 2 * (2 ^ j + h) + 1 by omega, bitrev7_two_mul_add_one]
      rw [bitrev7_eq_two_mul (by omega : 2 * 2 ^ j - 1 - h < 64),
        bitrev7_eq_two_mul (by omega : 2 ^ j + h < 64)] at hparent
      omega

/-! ### Twiddles as residues -/

/-- A twiddle as a residue. -/
def twiddle (i : Nat) : ZMod 3329 := (17 : ZMod 3329) ^ bitrev7 i

theorem intCast_modq (v : Int) : (modq v : ZMod 3329) = v := ZMod.intCast_mod v 3329

theorem intCast_zeta (i : Nat) : (zeta i : ZMod 3329) = twiddle i := by
  have hmod := intCast_modq ((Config.root : Int) ^ bitrev7 i)
  push_cast at hmod
  exact hmod

/-- 17 is a primitive 256th root of unity (R5). -/
theorem root_pow_128 : (17 : ZMod 3329) ^ 128 = -1 := by
  have h : ((17 ^ 128 : Nat) : ZMod 3329) = (3328 : Nat) :=
    (ZMod.natCast_eq_natCast_iff' _ _ _).mpr (by decide)
  exact_mod_cast h

/-- The root of node n of the splitting tree: node 1 is X^256 + 1, of root -1, and node i has the
children 2*i and 2*i + 1 with the two square roots of its own root. -/
def nodeRoot (n : Nat) : ZMod 3329 := if n % 2 = 0 then twiddle (n / 2) else -twiddle (n / 2)

theorem nodeRoot_two_mul (i : Nat) : nodeRoot (2 * i) = twiddle i := by
  simp [nodeRoot]

theorem nodeRoot_two_mul_add_one (i : Nat) : nodeRoot (2 * i + 1) = -twiddle i := by
  rw [nodeRoot, if_neg (by omega), show (2 * i + 1) / 2 = i by omega]

/-- The twiddle that splits a node is a square root of its root. -/
theorem twiddle_sq {n : Nat} (h : n < 128) : twiddle n ^ 2 = nodeRoot n := by
  have hsq (i : Nat) (hi : i < 64) : twiddle (2 * i) ^ 2 = twiddle i := by
    rw [twiddle, twiddle, bitrev7_eq_two_mul hi, ← pow_mul, Nat.mul_comm]
  obtain ⟨i, rfl | rfl⟩ := Nat.even_or_odd' n
  · rw [nodeRoot_two_mul, hsq i (by omega)]
  · rw [nodeRoot_two_mul_add_one, ← hsq i (by omega), twiddle, twiddle,
      bitrev7_two_mul_add_one, pow_add, mul_pow, ← pow_mul, root_pow_128, neg_one_mul]

theorem nodeRoot_sq {n : Nat} (h : n < 256) : nodeRoot n ^ 2 = nodeRoot (n / 2) := by
  rw [← twiddle_sq (by omega : n / 2 < 128), nodeRoot]
  split
  · rfl
  · exact neg_sq _

/-- The roots of the last 128 nodes are the twists (R117). -/
theorem nodeRoot_leaf {i : Nat} (h : i < 128) : nodeRoot (128 + i) = 17 ^ (2 * bitrev7 i + 1) := by
  obtain ⟨j, rfl | rfl⟩ := Nat.even_or_odd' i
  · rw [show 128 + 2 * j = 2 * (64 + j) by omega, nodeRoot_two_mul, twiddle, bitrev7_add_64 (by omega),
      bitrev7_eq_two_mul (by omega)]
  · rw [show 128 + (2 * j + 1) = 2 * (64 + j) + 1 by omega, nodeRoot_two_mul_add_one, twiddle,
      bitrev7_add_64 (by omega), bitrev7_eq_two_mul (by omega : j < 64),
      bitrev7_two_mul_add_one, Nat.mul_add, Nat.add_assoc, pow_add 17 (2 * 64), root_pow_128,
      neg_one_mul]

/-- The twiddle of an inverse group is minus the inverse of the forward one (R164). -/
theorem twiddle_inverse_mul {len g : Nat} (hl : len ∈ [2, 4, 8, 16, 32, 64, 128])
    (hg : g < 128 / len) : twiddle (256 / len - 1 - g) * twiddle (128 / len + g) = -1 := by
  have hrow : ∀ len ∈ [2, 4, 8, 16, 32, 64, 128], ∃ j, j < 7 ∧ 128 / len = 2 ^ j ∧
      256 / len = 2 * 2 ^ j := by decide
  obtain ⟨j, hj, hgroups, htwice⟩ := hrow len hl
  rw [hgroups] at hg ⊢
  rw [htwice, twiddle, twiddle, ← pow_add, bitrev7_add_bitrev7_mirror hj hg, root_pow_128]

end Sys2Proof.Machine
end

section
/-!
SUPPORT. The transforms on residues modulo 3329: what a round at once makes of one pair, that rounds
keep linear combinations (R166(c), R167), and that a forward and an inverse round of the same block
size undo each other up to the factor 2 (R166(a)).
-/

namespace Sys2Proof.Machine

open Sys2Proof.Claims

/-! ### Residues of sequences -/

/-- `f[k]` as a residue modulo 3329. -/
def residue (f : List Int) (k : Nat) : ZMod 3329 := entry f k

theorem residue_map_modq (g : Int → Int) (f : List Int) {k : Nat} (hk : k < f.length) :
    residue (f.map fun v => modq (g v)) k = (g (entry f k) : ZMod 3329) := by
  rw [residue, entry_map _ f k hk, intCast_modq]

/-- Sequences of 256 field values with the same residues are equal. -/
theorem eq_of_residue_eq {f g : List Int} (hf : f.length = 256) (hg : g.length = 256)
    (hfr : reduced f) (hgr : reduced g) (h : ∀ k, k < 256 → residue f k = residue g k) : f = g := by
  refine ext_entry hf hg fun k hk => ?_
  have hmodq : modq (entry f k) = modq (entry g k) :=
    (modq_eq_iff _ _).mpr ((ZMod.intCast_eq_intCast_iff _ _ 3329).mp (h k hk))
  rwa [modq_entry_of_reduced hfr, modq_entry_of_reduced hgr] at hmodq

/-! ### One round on one pair -/

/-- Both cells of pair r of group g lie in the sequence. -/
theorem groupPosition_lt {G len g r : Nat} (hG : G * (2 * len) = 256) (hg : g < G) (hr : r < len) :
    g * (2 * len) + r + len < 256 := by
  have hle := Nat.mul_le_mul_right (2 * len) (Nat.succ_le_of_lt hg)
  rw [Nat.succ_mul, hG] at hle
  omega

/-- The pairs of the groups of a round cover all 256 cells. -/
theorem forall_of_forall_pair {G len : Nat} (hG : G * (2 * len) = 256) {p : Nat → Prop}
    (h : ∀ g, g < G → ∀ r, r < len → p (g * (2 * len) + r) ∧ p (g * (2 * len) + r + len)) :
    ∀ k, k < 256 → p k := by
  intro k hk
  have hg : k / (2 * len) < G := Nat.div_lt_of_lt_mul (by rwa [Nat.mul_comm, hG])
  have hpos : 0 < 2 * len := Nat.pos_of_ne_zero fun h0 => by simp [h0] at hG
  have hlt := Nat.mod_lt k hpos
  have hk' := Nat.div_add_mod' k (2 * len)
  obtain hlow | hhigh := Nat.lt_or_ge (k % (2 * len)) len
  · exact hk' ▸ (h _ hg _ hlow).1
  · have hp := (h _ hg (k % (2 * len) - len) (by omega)).2
    rwa [Nat.add_assoc, Nat.sub_add_cancel hhigh, hk'] at hp

theorem pairValue_low (g h : Int → Int → Int) {len r : Nat} (hr : r < len) (f : List Int)
    (m : Nat) :
    pairValue g h len f (m * (2 * len) + r) =
      g (entry f (m * (2 * len) + r)) (entry f (m * (2 * len) + r + len)) := by
  rw [pairValue, Nat.mul_add_mod', Nat.mod_eq_of_lt (by omega), if_pos hr]

theorem pairValue_high (g h : Int → Int → Int) {len r : Nat} (hr : r < len) (f : List Int)
    (m : Nat) :
    pairValue g h len f (m * (2 * len) + r + len) =
      h (entry f (m * (2 * len) + r)) (entry f (m * (2 * len) + r + len)) := by
  rw [pairValue, Nat.add_assoc, Nat.mul_add_mod', Nat.mod_eq_of_lt (by omega), if_neg (by omega),
    ← Nat.add_assoc, Nat.add_sub_cancel]

theorem groupOf_position {len j : Nat} (hj : j < 2 * len) (m : Nat) :
    (m * (2 * len) + j) / (2 * len) = m := by
  rw [Nat.add_comm, Nat.add_mul_div_right _ _ (by omega), Nat.div_eq_of_lt hj, Nat.zero_add]

/-- A forward round makes (u + z*v, u - z*v) of the pair (u, v) (R160, R164). -/
theorem residue_forwardAtOnce {G len g r : Nat} (hG : 128 / len = G) (hcover : G * (2 * len) = 256)
    (hg : g < G) (hr : r < len) (f : List Int) :
    residue (forwardAtOnce f len) (g * (2 * len) + r) =
        residue f (g * (2 * len) + r) + twiddle (G + g) * residue f (g * (2 * len) + r + len) ∧
      residue (forwardAtOnce f len) (g * (2 * len) + r + len) =
        residue f (g * (2 * len) + r) - twiddle (G + g) * residue f (g * (2 * len) + r + len) := by
  have hlt := groupPosition_lt hcover hg hr
  constructor
  · rw [residue, entry_forwardAtOnce f len (by omega), pairValue_low _ _ hr, intCast_modq, hG,
      groupOf_position (by omega), ← intCast_zeta]
    push_cast
    rfl
  · rw [residue, entry_forwardAtOnce f len hlt, pairValue_high _ _ hr, intCast_modq, hG, Nat.add_assoc,
      groupOf_position (by omega), ← intCast_zeta]
    push_cast
    rfl

/-- An inverse round makes (u + v, z*(v - u)) of the pair (u, v) (R162, R164). -/
theorem residue_inverseAtOnce {G len g r : Nat} (hcover : G * (2 * len) = 256)
    (hg : g < G) (hr : r < len) (f : List Int) :
    residue (inverseAtOnce f len) (g * (2 * len) + r) =
        residue f (g * (2 * len) + r) + residue f (g * (2 * len) + r + len) ∧
      residue (inverseAtOnce f len) (g * (2 * len) + r + len) =
        twiddle (256 / len - 1 - g) *
          (residue f (g * (2 * len) + r + len) - residue f (g * (2 * len) + r)) := by
  have hlt := groupPosition_lt hcover hg hr
  constructor
  · rw [residue, entry_inverseAtOnce f len (by omega), pairValue_low _ _ hr, intCast_modq]
    push_cast
    rfl
  · rw [residue, entry_inverseAtOnce f len hlt, pairValue_high _ _ hr, intCast_modq, Nat.add_assoc,
      groupOf_position (by omega), ← intCast_zeta]
    push_cast
    rfl

/-- The groups of a round of one of the seven block sizes cover the sequence. -/
theorem groups_cover : ∀ len ∈ [2, 4, 8, 16, 32, 64, 128], 128 / len * (2 * len) = 256 := by decide

/-! ### Linear combinations -/

/-- On residues, `h` is a times `f` plus b times `g`. -/
def combines (a b : ZMod 3329) (f g h : List Int) : Prop :=
  ∀ k, k < 256 → residue h k = a * residue f k + b * residue g k

/-- On residues, `h` is c times `f`. -/
def scales (c : ZMod 3329) (f h : List Int) : Prop := ∀ k, k < 256 → residue h k = c * residue f k

/-- The map keeps linear combinations modulo 3329. -/
def linearModQ (p : List Int → List Int) : Prop :=
  ∀ a b f g h, combines a b f g h → combines a b (p f) (p g) (p h)

theorem linearModQ.scales {p : List Int → List Int} (hp : linearModQ p) {c : ZMod 3329}
    {f h : List Int} (hs : scales c f h) : scales c (p f) (p h) := by
  have hcomb := hp c 0 f f h fun k hk => by rw [hs k hk, zero_mul, add_zero]
  intro k hk
  rw [hcomb k hk, zero_mul, add_zero]

theorem linearModQ_foldl {p : List Int → Nat → List Int} {lens : List Nat}
    (hp : ∀ len ∈ lens, linearModQ (p · len)) : linearModQ (lens.foldl p) := by
  induction lens with
  | nil => exact fun _ _ _ _ _ h => h
  | cons len lens ih =>
    exact fun a b f g h hc => ih (fun l hl => hp l (List.mem_cons_of_mem _ hl)) a b _ _ _
      (hp len List.mem_cons_self a b f g h hc)

/-- A round keeps linear combinations when both new values of every pair are linear in the old pair. -/
theorem linearModQ_of_pairs {p : List Int → List Int} {G len : Nat} (hcover : G * (2 * len) = 256)
    (hpair : ∀ g, g < G → ∀ r, r < len → ∃ c d c' d' : ZMod 3329, ∀ f,
      residue (p f) (g * (2 * len) + r) =
          c * residue f (g * (2 * len) + r) + d * residue f (g * (2 * len) + r + len) ∧
        residue (p f) (g * (2 * len) + r + len) =
          c' * residue f (g * (2 * len) + r) + d' * residue f (g * (2 * len) + r + len)) :
    linearModQ p := by
  intro a b f g h hc
  refine forall_of_forall_pair hcover fun m hm r hr => ?_
  obtain ⟨c, d, c', d', hp⟩ := hpair m hm r hr
  have hlt := groupPosition_lt hcover hm hr
  have hu := hc (m * (2 * len) + r) (by omega)
  have hv := hc (m * (2 * len) + r + len) hlt
  rw [(hp f).1, (hp f).2, (hp g).1, (hp g).2, (hp h).1, (hp h).2, hu, hv]
  constructor <;> ring

theorem linearModQ_forwardAtOnce {len : Nat} (hl : len ∈ [2, 4, 8, 16, 32, 64, 128]) :
    linearModQ (forwardAtOnce · len) := by
  refine linearModQ_of_pairs (groups_cover len hl) fun g hg r hr =>
    ⟨1, twiddle (128 / len + g), 1, -twiddle (128 / len + g), fun f => ?_⟩
  obtain ⟨hlow, hhigh⟩ := residue_forwardAtOnce rfl (groups_cover len hl) hg hr f
  exact ⟨by rw [hlow, one_mul], by rw [hhigh]; ring⟩

theorem linearModQ_inverseAtOnce {len : Nat} (hl : len ∈ [2, 4, 8, 16, 32, 64, 128]) :
    linearModQ (inverseAtOnce · len) := by
  refine linearModQ_of_pairs (groups_cover len hl) fun g hg r hr =>
    ⟨1, 1, -twiddle (256 / len - 1 - g), twiddle (256 / len - 1 - g), fun f => ?_⟩
  obtain ⟨hlow, hhigh⟩ := residue_inverseAtOnce (groups_cover len hl) hg hr f
  exact ⟨by rw [hlow, one_mul, one_mul], by rw [hhigh]; ring⟩

theorem linearModQ_forwardRounds : linearModQ forwardRounds :=
  linearModQ_foldl fun len hl => linearModQ_forwardAtOnce
    ((by decide : [128, 64, 32, 16, 8, 4, 2] ⊆ [2, 4, 8, 16, 32, 64, 128]) hl)

theorem linearModQ_inverseRounds : linearModQ inverseRounds :=
  linearModQ_foldl fun _ hl => linearModQ_inverseAtOnce hl

/-! ### Rounds that undo each other -/

/-- The forward and the inverse butterflies of a group undo each other up to the factor 2: the product
of their twiddles is -1 (R164). -/
theorem scales_inverse_forward {len : Nat} (hl : len ∈ [2, 4, 8, 16, 32, 64, 128]) (f : List Int) :
    scales 2 f (inverseAtOnce (forwardAtOnce f len) len) := by
  refine forall_of_forall_pair (groups_cover len hl) fun m hm r hr => ?_
  obtain ⟨hflo, hfhi⟩ := residue_forwardAtOnce rfl (groups_cover len hl) hm hr f
  obtain ⟨hlo, hhi⟩ := residue_inverseAtOnce (groups_cover len hl) hm hr (forwardAtOnce f len)
  have hz := twiddle_inverse_mul hl hm
  rw [hlo, hhi, hflo, hfhi]
  constructor
  · ring
  · linear_combination (-2 * residue f (m * (2 * len) + r + len)) * hz

theorem scales_forward_inverse {len : Nat} (hl : len ∈ [2, 4, 8, 16, 32, 64, 128]) (f : List Int) :
    scales 2 f (forwardAtOnce (inverseAtOnce f len) len) := by
  refine forall_of_forall_pair (groups_cover len hl) fun m hm r hr => ?_
  obtain ⟨hilo, hihi⟩ := residue_inverseAtOnce (groups_cover len hl) hm hr f
  obtain ⟨hlo, hhi⟩ := residue_forwardAtOnce rfl (groups_cover len hl) hm hr (inverseAtOnce f len)
  have hz := twiddle_inverse_mul hl hm
  rw [hlo, hhi, hilo, hihi]
  constructor
  · linear_combination
      (residue f (m * (2 * len) + r + len) - residue f (m * (2 * len) + r)) * hz
  · linear_combination
      (residue f (m * (2 * len) + r) - residue f (m * (2 * len) + r + len)) * hz

/-- Rounds undone one by one in the opposite order leave a factor 2 for each. -/
theorem scales_foldl_reverse {p p' : List Int → Nat → List Int} {lens : List Nat}
    (hlin : ∀ len ∈ lens, linearModQ (p' · len))
    (hundo : ∀ len ∈ lens, ∀ f, scales 2 f (p' (p f len) len)) (f : List Int) :
    scales (2 ^ lens.length) f (lens.reverse.foldl p' (lens.foldl p f)) := by
  induction lens generalizing f with
  | nil => exact fun k _ => by simp
  | cons len lens ih =>
    have hrest := ih (fun l hl => hlin l (List.mem_cons_of_mem _ hl))
      (fun l hl => hundo l (List.mem_cons_of_mem _ hl)) (p f len)
    have hlast := (hlin len List.mem_cons_self).scales hrest
    rw [List.reverse_cons, List.foldl_append, List.foldl_cons, List.foldl_cons, List.foldl_nil]
    intro k hk
    rw [hlast k hk, hundo len List.mem_cons_self f k hk, List.length_cons, pow_succ, mul_assoc]

theorem scales_inverseRounds_forwardRounds (f : List Int) :
    scales 128 f (inverseRounds (forwardRounds f)) := by
  have hsub : [128, 64, 32, 16, 8, 4, 2] ⊆ [2, 4, 8, 16, 32, 64, 128] := by decide
  have h := scales_foldl_reverse (fun len hl => linearModQ_inverseAtOnce (hsub hl))
    (fun len hl => scales_inverse_forward (hsub hl)) f
  rwa [show (2 : ZMod 3329) ^ [128, 64, 32, 16, 8, 4, 2].length = 128 by norm_num] at h

theorem scales_forwardRounds_inverseRounds (f : List Int) :
    scales 128 f (forwardRounds (inverseRounds f)) := by
  have h := scales_foldl_reverse (fun len hl => linearModQ_forwardAtOnce hl)
    (fun len hl => scales_forward_inverse hl) f
  rwa [show (2 : ZMod 3329) ^ [2, 4, 8, 16, 32, 64, 128].length = 128 by norm_num] at h

/-! ### The networks -/

theorem residue_nttNetwork {f : List Int} (hf : f.length = 256) (k : Nat) :
    residue (nttNetwork f) k = residue (forwardRounds f) k := by
  rw [nttNetwork_eq_forwardRounds f hf]

theorem residue_inttNetwork {f : List Int} (hf : f.length = 256) {k : Nat} (hk : k < 256) :
    residue (inttNetwork f) k = residue (inverseRounds f) k * 3303 := by
  rw [inttNetwork_eq_inverseRounds f hf, residue_map_modq _ _ (by rwa [inverseRounds_length])]
  push_cast
  rfl

/-- 3303 is the inverse of 128 (R5). -/
theorem ninv_mul_128 : (3303 * 128 : ZMod 3329) = 1 := by
  have h : ((3303 * 128 : Nat) : ZMod 3329) = (1 : Nat) :=
    (ZMod.natCast_eq_natCast_iff' _ _ _).mpr (by decide)
  exact_mod_cast h

/-- INTT undoes NTT (R166(a)). -/
theorem inttNetwork_nttNetwork {f : List Int} (hf : f.length = 256) (hr : reduced f) :
    inttNetwork (nttNetwork f) = f := by
  have hlen := nttNetwork_length f hf
  refine eq_of_residue_eq (inttNetwork_length _ hlen) hf (reduced_inttNetwork _) hr fun k hk => ?_
  rw [residue_inttNetwork hlen hk, nttNetwork_eq_forwardRounds f hf,
    scales_inverseRounds_forwardRounds f k hk]
  linear_combination residue f k * ninv_mul_128

/-- NTT undoes INTT (R166(a)). -/
theorem nttNetwork_inttNetwork {f : List Int} (hf : f.length = 256) (hr : reduced f) :
    nttNetwork (inttNetwork f) = f := by
  have hlen := inttNetwork_length f hf
  refine eq_of_residue_eq (nttNetwork_length _ hlen) hf (reduced_nttNetwork _ hlen) hr fun k hk => ?_
  have hscale : scales 3303 (inverseRounds f) (inttNetwork f) := fun j hj => by
    rw [residue_inttNetwork hf hj, mul_comm]
  rw [residue_nttNetwork hlen, linearModQ_forwardRounds.scales hscale k hk,
    scales_forwardRounds_inverseRounds f k hk]
  linear_combination residue f k * ninv_mul_128

/-- NTT takes a combination of two sequences to the combination of their transforms (R166(c)). -/
theorem combines_nttNetwork {a b : ZMod 3329} {f g h : List Int} (hf : f.length = 256)
    (hg : g.length = 256) (hh : h.length = 256) (hc : combines a b f g h) :
    combines a b (nttNetwork f) (nttNetwork g) (nttNetwork h) := by
  intro k hk
  rw [residue_nttNetwork hf, residue_nttNetwork hg, residue_nttNetwork hh,
    linearModQ_forwardRounds a b f g h hc k hk]

/-- INTT takes a combination of two sequences to the combination of their transforms (R166(c)). -/
theorem combines_inttNetwork {a b : ZMod 3329} {f g h : List Int} (hf : f.length = 256)
    (hg : g.length = 256) (hh : h.length = 256) (hc : combines a b f g h) :
    combines a b (inttNetwork f) (inttNetwork g) (inttNetwork h) := by
  intro k hk
  rw [residue_inttNetwork hf hk, residue_inttNetwork hg hk, residue_inttNetwork hh hk,
    linearModQ_inverseRounds a b f g h hc k hk]
  ring

end Sys2Proof.Machine
end

section
/-!
SUPPORT. The forward rounds as divisions with remainder (R166(b)): after each round, the blocks of
the sequence are the remainders of the polynomial modulo X^len minus a root, and a round splits every
block by the two square roots of its root.
-/

namespace Sys2Proof.Machine

open Sys2Proof.Claims

/-- Block b of `f`, of `blocks` blocks of len values, is the remainder of the polynomial `f₀` modulo
X^len - nodeRoot (blocks + b). -/
def holdsRemainders (blocks len : Nat) (f₀ f : List Int) : Prop :=
  ∀ b, b < blocks → ∀ r, r < len →
    residue f (b * len + r) =
      ∑ m ∈ Finset.range blocks, residue f₀ (m * len + r) * nodeRoot (blocks + b) ^ m

/-- Before the first round the one block is the polynomial itself. -/
theorem holdsRemainders_self (f : List Int) : holdsRemainders 1 256 f f := by
  intro b hb r _
  obtain rfl := Nat.lt_one_iff.mp hb
  simp

theorem sum_range_two_mul (n : Nat) (x : Nat → ZMod 3329) :
    ∑ m ∈ Finset.range (2 * n), x m = ∑ m ∈ Finset.range n, (x (2 * m) + x (2 * m + 1)) := by
  induction n with
  | zero => rfl
  | succ n ih => rw [Nat.mul_succ, Finset.sum_range_succ, Finset.sum_range_succ, ih,
      Finset.sum_range_succ, add_assoc]

/-- A polynomial in X^len at w is its even part at w^2 plus w times its odd part at w^2. -/
theorem sum_range_even_odd (f₀ : List Int) (n len r : Nat) (w : ZMod 3329) :
    ∑ m ∈ Finset.range (2 * n), residue f₀ (m * len + r) * w ^ m =
      ∑ m ∈ Finset.range n, residue f₀ (m * (2 * len) + r) * (w ^ 2) ^ m +
        w * ∑ m ∈ Finset.range n, residue f₀ (m * (2 * len) + (r + len)) * (w ^ 2) ^ m := by
  rw [sum_range_two_mul, Finset.mul_sum, ← Finset.sum_add_distrib]
  refine Finset.sum_congr rfl fun m _ => ?_
  rw [show 2 * m * len + r = m * (2 * len) + r by ring,
    show (2 * m + 1) * len + r = m * (2 * len) + (r + len) by ring]
  ring

/-- A round puts into block b of the finer split the lower half of its parent plus the block's root
times the upper half. -/
theorem residue_forwardAtOnce_block {G len b r : Nat} (hG : 128 / len = G)
    (hcover : G * (2 * len) = 256) (hb : b < 2 * G) (hr : r < len) (f : List Int) :
    residue (forwardAtOnce f len) (b * len + r) =
      residue f (b / 2 * (2 * len) + r) +
        nodeRoot (2 * G + b) * residue f (b / 2 * (2 * len) + (r + len)) := by
  obtain ⟨g, rfl | rfl⟩ := Nat.even_or_odd' b
  · have hlow := (residue_forwardAtOnce hG hcover (by omega : g < G) hr f).1
    rwa [show 2 * g * len + r = g * (2 * len) + r by ring, show 2 * g / 2 = g by omega, ← Nat.mul_add,
      nodeRoot_two_mul, ← Nat.add_assoc]
  · have hhigh := (residue_forwardAtOnce hG hcover (by omega : g < G) hr f).2
    rw [show (2 * g + 1) * len + r = g * (2 * len) + r + len by ring,
      show (2 * g + 1) / 2 = g by omega, ← Nat.add_assoc (2 * G), ← Nat.mul_add,
      nodeRoot_two_mul_add_one, ← Nat.add_assoc, hhigh]
    ring

/-- A round splits the remainders: each modulus X^(2*len) - c becomes X^len - w for both w with
w^2 = c. -/
theorem holdsRemainders.forwardAtOnce {G len : Nat} {f₀ f : List Int}
    (h : holdsRemainders G (2 * len) f₀ f) (hG : 128 / len = G) (hcover : G * (2 * len) = 256)
    (hsmall : G ≤ 64) : holdsRemainders (2 * G) len f₀ (forwardAtOnce f len) := by
  intro b hb r hr
  have hroot : nodeRoot (2 * G + b) ^ 2 = nodeRoot (G + b / 2) := by
    rw [nodeRoot_sq (by omega), Nat.mul_add_div two_pos]
  have hparent (j : Nat) (hj : j < 2 * len) := h (b / 2) (by omega) j hj
  rw [residue_forwardAtOnce_block hG hcover hb hr, hparent r (by omega), hparent (r + len) (by omega),
    sum_range_even_odd, hroot]

/-- After the seven rounds the 128 pairs are the remainders modulo X^2 - gamma(i) (R166(b)). -/
theorem holdsRemainders_forwardRounds (f : List Int) : holdsRemainders 128 2 f (forwardRounds f) := by
  have h128 := (holdsRemainders_self f).forwardAtOnce (len := 128) rfl rfl (by decide)
  have h64 := h128.forwardAtOnce (len := 64) rfl rfl (by decide)
  have h32 := h64.forwardAtOnce (len := 32) rfl rfl (by decide)
  have h16 := h32.forwardAtOnce (len := 16) rfl rfl (by decide)
  have h8 := h16.forwardAtOnce (len := 8) rfl rfl (by decide)
  have h4 := h8.forwardAtOnce (len := 4) rfl rfl (by decide)
  exact h4.forwardAtOnce (len := 2) rfl rfl le_rfl

end Sys2Proof.Machine
end

section
/-!
The statements on the two transforms (43_transform.md).
-/

namespace Sys2Proof.Machine

open Sys2Proof.Claims

/-! ### Butterflies -/

theorem entry_set_same {f : List Int} {j : Nat} (h : j < f.length) (x : Int) :
    entry (f.set j x) j = x := by
  simp [entry, h]

theorem entry_set_other (f : List Int) {j k : Nat} (h : k ≠ j) (x : Int) :
    entry (f.set j x) k = entry f k := by
  simp [entry, List.getD, List.getElem?_set_ne h.symm]

/-- Settles O42, write by write: both new values are made from the old pair. -/
theorem butterfliesReplaceOnePair : Obligations.ButterfliesReplaceOnePair := by
  intro f z j len hf hlen hj
  have hne : j ≠ j + len := by omega
  have hlow (x : Int) : j < (f.set (j + len) x).length := by rw [List.length_set]; omega
  have hhigh (x : Int) : j + len < (f.set j x).length := by rw [List.length_set]; omega
  have hreduce (x : Int) : modq (entry f j + modq x) = modq (entry f j + x) := by simp [modq]
  have hreduce' (x : Int) : modq (entry f j - modq x) = modq (entry f j - x) := by simp [modq]
  refine ⟨by simp [butterfly, hf], by simp [invButterfly, hf], ?_, ?_, ?_, ?_,
    fun k _ hkj hkl => ⟨?_, ?_⟩⟩
  · rw [butterfly, entry_set_same (hlow _), hreduce]
  · rw [butterfly, entry_set_other _ hne.symm, entry_set_same (by omega), hreduce']
  · rw [invButterfly, entry_set_other _ hne, entry_set_same (by omega)]
  · rw [invButterfly, entry_set_same (hhigh _)]
  · rw [butterfly, entry_set_other _ hkj, entry_set_other _ hkl]
  · rw [invButterfly, entry_set_other _ hkl, entry_set_other _ hkj]

/-! ### The commands on registers -/

theorem reduced_source {s : State} {r : RegNum} (h : isField (s.reg r)) : reduced (s.source r) :=
  (forall_mem_source_iff s r _).mpr fun k hk =>
    modq_of_range _ (Int.natCast_nonneg _) (by exact_mod_cast h k hk)

/-- A register written with field values reads back as them. -/
theorem source_setDest_of_reduced (s : State) (rd : RegNum) {vs : List Int} (hlen : vs.length = 256)
    (h : reduced vs) : (s.setDest rd vs).source rd = vs := by
  rw [State.source, s.setDest_reg_same, ints_ofInts hlen]
  intro v hv
  have h0 := modq_nonneg v
  have h1 := modq_lt v
  rw [h v hv] at h0 h1
  omega

theorem cell_setDest_of_reduced (s : State) (rd : RegNum) {vs : List Int} (hlen : vs.length = 256)
    (h : reduced vs) {k : Nat} (hk : k < 256) :
    (cell ((s.setDest rd vs).reg rd) k : Int) = entry vs k := by
  rw [← entry_source_eq_cell _ _ hk, source_setDest_of_reduced s rd hlen h]

theorem residue_source (s : State) (r : RegNum) {k : Nat} (hk : k < 256) :
    residue (s.source r) k = (cell (s.reg r) k : ZMod 3329) := by
  rw [residue, entry_source_eq_cell s r hk, Int.cast_natCast]

/-- A field value is the natural number modulo 3329 that has its residue. -/
theorem eq_mod_of_natCast_eq {v w : Nat} (hv : v < 3329) (h : (v : ZMod 3329) = w) : v = w % 3329 := by
  rw [← (ZMod.natCast_eq_natCast_iff' v w 3329).mp h, Nat.mod_eq_of_lt hv]

/-- Cell 2*i + e of what NTT writes, e being 0 or 1, is the polynomial of the cells of that parity at
gamma(i). -/
theorem cell_ntt (s : State) (rd ra : RegNum) {i e : Nat} (hi : i < 128) (he : e < 2) :
    cell ((s.setDest rd (nttNetwork (s.source ra))).reg rd) (2 * i + e) =
      (∑ k ∈ Finset.range 128,
        cell (s.reg ra) (2 * k + e) * (17 ^ (2 * bitrev7 i + 1)) ^ k) % 3329 := by
  have hlen := s.source_length ra
  have hred := reduced_nttNetwork _ hlen
  have hk : 2 * i + e < 256 := by omega
  have hlt := isField_ofInts hred (2 * i + e) hk
  rw [← s.setDest_reg_same rd] at hlt
  refine eq_mod_of_natCast_eq hlt ?_
  have hcell := cell_setDest_of_reduced s rd (nttNetwork_length _ hlen) hred hk
  have hrem := holdsRemainders_forwardRounds (s.source ra) i hi e he
  rw [← residue_nttNetwork hlen, Nat.mul_comm, residue, ← hcell, Int.cast_natCast, nodeRoot_leaf hi]
    at hrem
  rw [hrem]
  push_cast
  refine Finset.sum_congr rfl fun k hkr => ?_
  have hk128 := Finset.mem_range.mp hkr
  rw [Nat.mul_comm k 2, residue_source s ra (by omega)]

/-- Settles O43: the seven rounds divide with remainder. -/
theorem nttGivesTheRemainders : Obligations.NttGivesTheRemainders := fun rd ra s =>
  ⟨_, exec_ntt s rd ra, fun _ hi => ⟨cell_ntt s rd ra hi two_pos, cell_ntt s rd ra hi one_lt_two⟩,
    onlyDest_setDest s rd _⟩

/-- A field register written back through registers holds what it held. -/
theorem sameCells_setDest_source {s t : State} {rd ra : RegNum} {vs : List Int}
    (h : vs = s.source ra) : sameCells ((t.setDest rd vs).reg rd) (s.reg ra) := by
  intro k _
  rw [t.setDest_reg_same, h, State.source, ofInts_ints]

/-- Settles O44: what the first transform writes is field values, so the second reads it back as it
is. -/
theorem transformsUndoEachOther : Obligations.TransformsUndoEachOther := by
  intro r1 r2 ra s hfield
  have hlen := s.source_length ra
  have hred := reduced_source hfield
  constructor
  · refine ⟨_, execAll_pair (exec_ntt s r1 ra) (exec_intt _ r2 r1), sameCells_setDest_source ?_⟩
    rw [source_setDest_of_reduced s r1 (nttNetwork_length _ hlen) (reduced_nttNetwork _ hlen),
      inttNetwork_nttNetwork hlen hred]
  · refine ⟨_, execAll_pair (exec_intt s r1 ra) (exec_ntt _ r2 r1), sameCells_setDest_source ?_⟩
    rw [source_setDest_of_reduced s r1 (inttNetwork_length _ hlen) (reduced_inttNetwork _),
      nttNetwork_inttNetwork hlen hred]

/-! ### Linearity -/

/-- The reduced combination of two sequences, entry by entry. -/
def combination (a b : Int) (f g : List Int) : List Int :=
  List.zipWith (fun x y => modq (a * x + b * y)) f g

theorem combination_length (a b : Int) {f g : List Int} (hf : f.length = 256) (hg : g.length = 256) :
    (combination a b f g).length = 256 := by
  rw [combination, List.length_zipWith, hf, hg, Nat.min_self]

theorem reduced_combination (a b : Int) (f g : List Int) : reduced (combination a b f g) :=
  reduced_zipWith (fun _ _ => modq_modq _) f g

theorem combines_combination (a b : Int) {f g : List Int} (hf : f.length = 256) (hg : g.length = 256) :
    combines a b f g (combination a b f g) := by
  intro k hk
  rw [residue, combination, entry_zipWith _ f g k (hf.symm ▸ hk) (hg.symm ▸ hk), intCast_modq]
  push_cast
  rfl

/-- A sequence of field values that is the combination of two others on residues is their reduced
combination. -/
theorem combines.eq_combination {a b : Int} {f g h : List Int} (hc : combines a b f g h)
    (hf : f.length = 256) (hg : g.length = 256) (hh : h.length = 256) (hr : reduced h) :
    h = combination a b f g :=
  eq_of_residue_eq hh (combination_length a b hf hg) hr (reduced_combination a b f g) fun k hk => by
    rw [hc k hk, combines_combination a b hf hg k hk]

/-- Settles O45: the rounds keep combinations, and both sides are field values. -/
theorem transformsAreLinear : Obligations.TransformsAreLinear := by
  intro f g a b hf hg
  have hh := combination_length a b hf hg
  have hc := combines_combination a b hf hg
  exact ⟨(combines_nttNetwork hf hg hh hc).eq_combination (nttNetwork_length f hf)
      (nttNetwork_length g hg) (nttNetwork_length _ hh) (reduced_nttNetwork _ hh),
    (combines_inttNetwork hf hg hh hc).eq_combination (inttNetwork_length f hf)
      (inttNetwork_length g hg) (inttNetwork_length _ hh) (reduced_inttNetwork _)⟩

/-! ### Residues of the source -/

/-- A map that keeps combinations and writes field values gives equal results on equal residues. -/
theorem eq_of_sameResidues {p : List Int → List Int} {f g : List Int}
    (hlin : combines 1 0 f f g → combines 1 0 (p f) (p f) (p g)) (hf : (p f).length = 256)
    (hg : (p g).length = 256) (hfr : reduced (p f)) (hgr : reduced (p g))
    (h : ∀ k, k < 256 → residue f k = residue g k) : p f = p g := by
  have hc := hlin fun k hk => by rw [← h k hk, one_mul, zero_mul, add_zero]
  refine eq_of_residue_eq hf hg hfr hgr fun k hk => ?_
  rw [hc k hk, one_mul, zero_mul, add_zero]

/-- Settles O46: the unreduced and the reduced source have the same residues. -/
theorem transformsReadResiduesOnly : Obligations.TransformsReadResiduesOnly := by
  intro rd ra s s' hcells i hi
  have hf := s.source_length ra
  have hg := s'.source_length ra
  have hres : ∀ k, k < 256 → residue (s.source ra) k = residue (s'.source ra) k := by
    intro k hk
    rw [residue_source s ra hk, residue_source s' ra hk, hcells k hk, ZMod.natCast_mod]
  have hsame {vs vs' : List Int} (h : vs = vs') :
      sameCells ((s.setDest rd vs).reg rd) ((s'.setDest rd vs').reg rd) := by
    intro k _
    rw [s.setDest_reg_same, s'.setDest_reg_same, h]
  simp only [List.mem_cons, List.not_mem_nil, or_false] at hi
  obtain rfl | rfl := hi
  · exact ⟨_, _, exec_ntt s rd ra, exec_ntt s' rd ra,
      hsame (eq_of_sameResidues (combines_nttNetwork hf hf hg) (nttNetwork_length _ hf)
        (nttNetwork_length _ hg) (reduced_nttNetwork _ hf) (reduced_nttNetwork _ hg) hres), rfl, rfl⟩
  · exact ⟨_, _, exec_intt s rd ra, exec_intt s' rd ra,
      hsame (eq_of_sameResidues (combines_inttNetwork hf hf hg) (inttNetwork_length _ hf)
        (inttNetwork_length _ hg) (reduced_inttNetwork _) (reduced_inttNetwork _) hres), rfl, rfl⟩

/-! ### Rounds at once -/

/-- Settles O48: both networks, what the two commands leave of them, and the twiddles of a group. -/
theorem networksEqualRoundsAtOnce : Obligations.NetworksEqualRoundsAtOnce := by
  refine ⟨fun f hf => ⟨nttNetwork_eq_forwardRounds f hf, inttNetwork_eq_inverseRounds f hf⟩,
    fun rd ra s => ?_, fun len hl g hg => ?_⟩
  · have hlen := s.source_length ra
    refine ⟨⟨_, exec_ntt s rd ra, fun k hk => ?_, onlyDest_setDest s rd _⟩,
      ⟨_, exec_intt s rd ra, fun k hk => ?_, onlyDest_setDest s rd _⟩⟩
    · rw [cell_setDest_of_reduced s rd (nttNetwork_length _ hlen) (reduced_nttNetwork _ hlen) hk,
        nttNetwork_eq_forwardRounds _ hlen]
      rfl
    · rw [cell_setDest_of_reduced s rd (inttNetwork_length _ hlen) (reduced_inttNetwork _) hk,
        inttNetwork_eq_inverseRounds _ hlen,
        entry_map (fun v => modq (v * 3303)) _ k (by rwa [inverseRounds_length])]
      rfl
  · have hres : ((zeta (256 / len - 1 - g) * zeta (128 / len + g) : Int) : ZMod 3329)
        = (-1 : Int) := by
      rw [Int.cast_mul, intCast_zeta, intCast_zeta, twiddle_inverse_mul hl hg, Int.cast_neg,
        Int.cast_one]
    rw [(modq_eq_iff _ _).mpr ((ZMod.intCast_eq_intCast_iff _ _ 3329).mp hres)]
    rfl

end Sys2Proof.Machine
end

section
/-!
SUPPORT. The block product of MULNTT on residues modulo 3329 (R170, R171): a block is an element
a0 + a1*X of the ring modulo X^2 - gamma(i), and the command multiplies in that ring.
-/

namespace Sys2Proof.Machine

open Sys2Proof.Claims

/-! ### Sequences of 128 pairs -/

/-- What holds of both cells of every block holds of all 256 cells. -/
theorem forall_of_forall_block {p : Nat → Prop} (h : ∀ i, i < 128 → p (2 * i) ∧ p (2 * i + 1)) :
    ∀ k, k < 256 → p k := by
  intro k hk
  obtain ⟨i, rfl | rfl⟩ := Nat.even_or_odd' k
  · exact (h i (by omega)).1
  · exact (h i (by omega)).2

theorem flatMap_pair_length (u v : Nat → Int) (n : Nat) :
    ((List.range n).flatMap fun i => [u i, v i]).length = 2 * n := by
  simp [Nat.mul_comm]

theorem entry_flatMap_pair (u v : Nat → Int) {n i : Nat} (hi : i < n) :
    entry ((List.range n).flatMap fun i => [u i, v i]) (2 * i) = u i ∧
      entry ((List.range n).flatMap fun i => [u i, v i]) (2 * i + 1) = v i := by
  induction n with
  | zero => omega
  | succ n ih =>
    have hlen := flatMap_pair_length u v n
    rw [List.range_succ, List.flatMap_append]
    obtain hlt | rfl := Nat.lt_succ_iff_lt_or_eq.mp hi
    · rw [entry_append_left _ (by omega), entry_append_left _ (by omega)]
      exact ih hlt
    · rw [entry_append_right _ (by omega), entry_append_right _ (by omega), hlen,
        Nat.add_sub_cancel_left, Nat.sub_self]
      exact ⟨rfl, rfl⟩

@[simp] theorem mulBlocks_length (a b : List Int) : (mulBlocks a b).length = 256 :=
  flatMap_pair_length _ _ 128

/-- The two values of block i of the product (R170, R171). -/
theorem entry_mulBlocks (a b : List Int) {i : Nat} (hi : i < 128) :
    entry (mulBlocks a b) (2 * i) =
        modq (entry a (2 * i) * entry b (2 * i) + entry a (2 * i + 1) * entry b (2 * i + 1) * gamma i) ∧
      entry (mulBlocks a b) (2 * i + 1) =
        modq (entry a (2 * i) * entry b (2 * i + 1) + entry a (2 * i + 1) * entry b (2 * i)) :=
  entry_flatMap_pair _ _ hi

/-! ### Blocks as ring elements -/

/-- The twist of block i as a residue (R117). -/
def twist (i : Nat) : ZMod 3329 := 17 ^ (2 * bitrev7 i + 1)

theorem intCast_gamma (i : Nat) : (gamma i : ZMod 3329) = twist i := by
  have hmod := intCast_modq ((Config.root : Int) ^ (2 * bitrev7 i + 1))
  push_cast at hmod
  exact hmod

/-- Block i of a sequence, in the ring modulo X^2 - gamma(i). -/
def block (f : List Int) (i : Nat) : QuadraticAlgebra (ZMod 3329) (twist i) 0 :=
  ⟨residue f (2 * i), residue f (2 * i + 1)⟩

/-- Sequences of 256 field values with the same blocks are equal. -/
theorem eq_of_block_eq {f g : List Int} (hf : f.length = 256) (hg : g.length = 256)
    (hfr : reduced f) (hgr : reduced g) (h : ∀ i, i < 128 → block f i = block g i) : f = g :=
  eq_of_residue_eq hf hg hfr hgr <| forall_of_forall_block fun i hi =>
    ⟨congrArg QuadraticAlgebra.re (h i hi), congrArg QuadraticAlgebra.im (h i hi)⟩

theorem block_congr {f g : List Int} (h : ∀ k, k < 256 → residue f k = residue g k) {i : Nat}
    (hi : i < 128) : block f i = block g i :=
  QuadraticAlgebra.ext (h _ (by omega)) (h _ (by omega))

/-- The two residues of block i of the product (R170). -/
theorem residue_mulBlocks (a b : List Int) {i : Nat} (hi : i < 128) :
    residue (mulBlocks a b) (2 * i) =
        residue a (2 * i) * residue b (2 * i) +
          residue a (2 * i + 1) * residue b (2 * i + 1) * twist i ∧
      residue (mulBlocks a b) (2 * i + 1) =
        residue a (2 * i) * residue b (2 * i + 1) + residue a (2 * i + 1) * residue b (2 * i) := by
  obtain ⟨hlow, hhigh⟩ := entry_mulBlocks a b hi
  constructor
  · rw [residue, hlow, intCast_modq, ← intCast_gamma]
    push_cast
    rfl
  · rw [residue, hhigh, intCast_modq]
    push_cast
    rfl

/-- MULNTT multiplies in the rings modulo X^2 - gamma(i) (R171). -/
theorem block_mulBlocks (a b : List Int) {i : Nat} (hi : i < 128) :
    block (mulBlocks a b) i = block a i * block b i := by
  obtain ⟨hlow, hhigh⟩ := residue_mulBlocks a b hi
  ext
  · rw [QuadraticAlgebra.re_mul, block, hlow, block, block]
    ring
  · rw [QuadraticAlgebra.im_mul, block, hhigh, block, block]
    ring

theorem mulBlocks_comm (a b : List Int) : mulBlocks a b = mulBlocks b a :=
  eq_of_block_eq (mulBlocks_length a b) (mulBlocks_length b a) (reduced_mulBlocks a b)
    (reduced_mulBlocks b a) fun i hi => by rw [block_mulBlocks a b hi, block_mulBlocks b a hi, mul_comm]

/-- The product depends on the residues of its factors only (R173). -/
theorem mulBlocks_congr {a a' b b' : List Int} (ha : ∀ k, k < 256 → residue a k = residue a' k)
    (hb : ∀ k, k < 256 → residue b k = residue b' k) : mulBlocks a b = mulBlocks a' b' :=
  eq_of_block_eq (mulBlocks_length a b) (mulBlocks_length a' b') (reduced_mulBlocks a b)
    (reduced_mulBlocks a' b') fun i hi => by
      rw [block_mulBlocks a b hi, block_mulBlocks a' b' hi, block_congr ha hi, block_congr hb hi]

/-- A factor whose blocks are all 1 changes no residue of the other. -/
theorem residue_mulBlocks_one {a : List Int} (h : ∀ i, i < 128 → block a i = 1) (b : List Int) :
    ∀ k, k < 256 → residue (mulBlocks a b) k = residue b k := by
  refine forall_of_forall_block fun i hi => ?_
  have hblock := block_mulBlocks a b hi
  rw [h i hi, one_mul] at hblock
  exact ⟨congrArg QuadraticAlgebra.re hblock, congrArg QuadraticAlgebra.im hblock⟩

end Sys2Proof.Machine
end

section
/-!
SUPPORT. The product modulo X^256 + 1 and the transform (R172): the polynomial product is
multiplication at every root of X^256 + 1, and block i of a transform is the polynomial at the
square root X of gamma(i).
-/

namespace Sys2Proof.Machine

open Sys2Proof.Claims
open scoped QuadraticAlgebra

/-! ### Roots of X^256 + 1 -/

section

variable {A : Type} [CommRing A] {x : A}

/-- One product of two terms, wrapped around with a minus sign when its degree reaches 256. -/
theorem sum_wrapped_mul_pow (hx : x ^ 256 = -1) (c : A) {i j : Nat} (hi : i < 256) (hj : j < 256) :
    ∑ k ∈ Finset.range 256, (if i + j = k then c else if i + j = k + 256 then -c else 0) * x ^ k =
      c * x ^ (i + j) := by
  obtain hlt | hge := Nat.lt_or_ge (i + j) 256
  · rw [Finset.sum_eq_single_of_mem (i + j) (Finset.mem_range.mpr hlt), if_pos rfl]
    intro k hk hne
    have hk256 := Finset.mem_range.mp hk
    rw [if_neg hne.symm, if_neg (by omega), zero_mul]
  · obtain ⟨k, hk⟩ := Nat.exists_eq_add_of_le' hge
    rw [Finset.sum_eq_single_of_mem k (Finset.mem_range.mpr (by omega)), if_neg (by omega),
      if_pos hk, hk, pow_add, hx]
    · ring
    · intro k' hk' hne
      have hk256 := Finset.mem_range.mp hk'
      rw [if_neg (by omega), if_neg (by omega), zero_mul]

/-- The product modulo X^256 + 1 at a root of X^256 + 1 is the product of the values. -/
theorem sum_negacyclic_mul_pow (hx : x ^ 256 = -1) (v w : RingReg) :
    ∑ k ∈ Finset.range 256, (negacyclic v w k : A) * x ^ k =
      (∑ i ∈ Finset.range 256, (cell v i : A) * x ^ i) *
        ∑ j ∈ Finset.range 256, (cell w j : A) * x ^ j := by
  rw [Finset.sum_mul_sum]
  simp only [negacyclic, Int.cast_sum, Finset.sum_mul]
  rw [Finset.sum_comm]
  refine Finset.sum_congr rfl fun i hi => ?_
  rw [Finset.sum_comm]
  refine Finset.sum_congr rfl fun j hj => ?_
  have hterm := sum_wrapped_mul_pow hx ((cell v i : A) * cell w j) (Finset.mem_range.mp hi)
    (Finset.mem_range.mp hj)
  push_cast
  rw [hterm, pow_add]
  ring

end

/-! ### Remainders modulo X^2 - gamma(i) -/

theorem re_sum {R : Type} [CommRing R] {a b : R} (n : Nat) (g : Nat → QuadraticAlgebra R a b) :
    (∑ k ∈ Finset.range n, g k).re = ∑ k ∈ Finset.range n, (g k).re :=
  map_sum (QuadraticAlgebra.reₗ a b) g _

theorem im_sum {R : Type} [CommRing R] {a b : R} (n : Nat) (g : Nat → QuadraticAlgebra R a b) :
    (∑ k ∈ Finset.range n, g k).im = ∑ k ∈ Finset.range n, (g k).im :=
  map_sum (QuadraticAlgebra.imₗ a b) g _

/-- A polynomial modulo X^2 - gamma(i). -/
def remainder (i : Nat) (f : List Int) : QuadraticAlgebra (ZMod 3329) (twist i) 0 :=
  ∑ k ∈ Finset.range 256, .C (residue f k) * ω ^ k

theorem omega_sq (i : Nat) : (ω : QuadraticAlgebra (ZMod 3329) (twist i) 0) ^ 2 = .C (twist i) := by
  rw [sq, QuadraticAlgebra.omega_mul_omega_eq_mk]
  rfl

/-- Every modulus X^2 - gamma(i) divides X^256 + 1. -/
theorem omega_pow_256 (i : Nat) :
    (ω : QuadraticAlgebra (ZMod 3329) (twist i) 0) ^ 256 = -1 := by
  have htwist : twist i ^ 128 = -1 := by
    rw [twist, ← pow_mul, Nat.mul_comm, pow_mul, root_pow_128, Odd.neg_one_pow ⟨_, rfl⟩]
  rw [show 256 = 2 * 128 from rfl, pow_mul, omega_sq, ← QuadraticAlgebra.C_pow, htwist,
    QuadraticAlgebra.C_neg, QuadraticAlgebra.C_one]

/-- The even coefficients make the constant part of a remainder, the odd ones the part at X. -/
theorem remainder_eq (i : Nat) (f : List Int) :
    remainder i f =
      ⟨∑ m ∈ Finset.range 128, residue f (2 * m) * twist i ^ m,
        ∑ m ∈ Finset.range 128, residue f (2 * m + 1) * twist i ^ m⟩ := by
  have heven (m : Nat) :
      (ω : QuadraticAlgebra (ZMod 3329) (twist i) 0) ^ (2 * m) = ⟨twist i ^ m, 0⟩ := by
    rw [pow_mul, omega_sq, ← QuadraticAlgebra.C_pow]
    rfl
  have hodd (m : Nat) :
      (ω : QuadraticAlgebra (ZMod 3329) (twist i) 0) ^ (2 * m + 1) = ⟨0, twist i ^ m⟩ := by
    rw [pow_succ', heven, QuadraticAlgebra.omega_mul_mk]
    simp
  ext
  · rw [remainder, re_sum, show 256 = 2 * 128 from rfl, sum_range_two_mul]
    simp [heven, hodd]
  · rw [remainder, im_sum, show 256 = 2 * 128 from rfl, sum_range_two_mul]
    simp [heven, hodd]

/-- Block i of the transform is the remainder modulo X^2 - gamma(i) (R166(b)). -/
theorem block_nttNetwork {f : List Int} (hf : f.length = 256) {i : Nat} (hi : i < 128) :
    block (nttNetwork f) i = remainder i f := by
  have hrem {e : Nat} (he : e < 2) : residue (nttNetwork f) (2 * i + e) =
      ∑ m ∈ Finset.range 128, residue f (2 * m + e) * twist i ^ m := by
    have h := holdsRemainders_forwardRounds f i hi e he
    simpa only [Nat.mul_comm _ 2, nodeRoot_leaf hi, ← residue_nttNetwork hf, twist] using h
  have heven := hrem two_pos
  simp only [Nat.add_zero] at heven
  rw [remainder_eq, block, heven, hrem one_lt_two]

/-! ### The product property -/

/-- The product of two registers modulo X^256 + 1 and q, as a sequence (R172). -/
def ringProduct (v w : RingReg) : List Int := (List.range 256).map fun k => modq (negacyclic v w k)

@[simp] theorem ringProduct_length (v w : RingReg) : (ringProduct v w).length = 256 := by
  simp [ringProduct]

theorem entry_ringProduct (v w : RingReg) {k : Nat} (hk : k < 256) :
    entry (ringProduct v w) k = modq (negacyclic v w k) :=
  entry_map_range _ hk

theorem reduced_ringProduct (v w : RingReg) : reduced (ringProduct v w) := by
  intro y hy
  obtain ⟨k, _, rfl⟩ := List.mem_map.mp hy
  exact modq_modq _

/-- The remainder of a product is the product of the remainders. -/
theorem remainder_ringProduct (i : Nat) (s : State) (ra rb : RegNum) :
    remainder i (ringProduct (s.reg ra) (s.reg rb)) =
      remainder i (s.source ra) * remainder i (s.source rb) := by
  have hsource (r : RegNum) : remainder i (s.source r) =
      ∑ k ∈ Finset.range 256, (cell (s.reg r) k : QuadraticAlgebra (ZMod 3329) _ _) * ω ^ k :=
    Finset.sum_congr rfl fun k hk => by
      rw [residue_source s r (Finset.mem_range.mp hk), QuadraticAlgebra.C_natCast]
  rw [hsource, hsource, ← sum_negacyclic_mul_pow (omega_pow_256 i)]
  refine Finset.sum_congr rfl fun k hk => ?_
  rw [residue, entry_ringProduct _ _ (Finset.mem_range.mp hk), intCast_modq,
    QuadraticAlgebra.C_intCast]

/-- The block product of two transforms is the transform of the product (R172). -/
theorem mulBlocks_nttNetwork (s : State) (ra rb : RegNum) :
    mulBlocks (nttNetwork (s.source ra)) (nttNetwork (s.source rb)) =
      nttNetwork (ringProduct (s.reg ra) (s.reg rb)) := by
  have hlen := ringProduct_length (s.reg ra) (s.reg rb)
  refine eq_of_block_eq (mulBlocks_length _ _) (nttNetwork_length _ hlen) (reduced_mulBlocks _ _)
    (reduced_nttNetwork _ hlen) fun i hi => ?_
  rw [block_mulBlocks _ _ hi, block_nttNetwork (s.source_length ra) hi,
    block_nttNetwork (s.source_length rb) hi, block_nttNetwork hlen hi, remainder_ringProduct]

end Sys2Proof.Machine
end

section
/-!
The statements on the commands with two sources (44_pointwise_mul.md).
-/

namespace Sys2Proof.Machine

open Sys2Proof.Claims

/-! ### What a command leaves in its destination -/

theorem sameCells_setDest {s s' : State} (rd : RegNum) {vs vs' : List Int} (h : vs = vs') :
    sameCells ((s.setDest rd vs).reg rd) ((s'.setDest rd vs').reg rd) := by
  intro k _
  rw [s.setDest_reg_same, s'.setDest_reg_same, h]

/-- A cell written with a field value is the number modulo 3329 that has its residue. -/
theorem cell_setDest_eq_mod (s : State) (rd : RegNum) {vs : List Int} (hlen : vs.length = 256)
    (hred : reduced vs) {k w : Nat} (hk : k < 256) (h : residue vs k = w) :
    cell ((s.setDest rd vs).reg rd) k = w % 3329 := by
  have hlt := isField_ofInts hred k hk
  rw [← s.setDest_reg_same rd] at hlt
  refine eq_mod_of_natCast_eq hlt ?_
  rw [← h, residue, ← cell_setDest_of_reduced s rd hlen hred hk, Int.cast_natCast]

/-- A command that writes field values to R[rd], as its successor in a chain sees it. -/
theorem exists_next_source {i : Instr} {rd : RegNum} {s : State} {vs : List Int}
    (h : exec i s = .next (s.setDest rd vs)) (hlen : vs.length = 256) (hred : reduced vs) :
    ∃ t, exec i s = .next t ∧ t.source rd = vs ∧ ∀ r, r ≠ rd → t.source r = s.source r :=
  ⟨_, h, source_setDest_of_reduced s rd hlen hred, fun r hr => by
    rw [State.source, s.setDest_reg, if_neg hr, State.source]⟩

/-- A command that completes hands the rest of the list its state. -/
theorem execAll_cons_of_next {i : Instr} {is : List Instr} {s t : State} (h : exec i s = .next t) :
    execAll (i :: is) s = execAll is t := by
  simp [execAll, h]

/-! ### Residues of the sources -/

theorem residue_eq_of_sameResidues {s s' : State} {r : RegNum}
    (h : sameResidues (s.reg r) (s'.reg r)) :
    ∀ k, k < 256 → residue (s.source r) k = residue (s'.source r) k := by
  intro k hk
  rw [residue_source s r hk, residue_source s' r hk]
  exact (ZMod.natCast_eq_natCast_iff' _ _ 3329).mpr (h k hk)

/-- A reduced operation cell by cell depends on residues only, when the operation does (R112). -/
theorem zipWith_modq_congr {op : Int → Int → Int} {opq : ZMod 3329 → ZMod 3329 → ZMod 3329}
    (hop : ∀ x y : Int, (op x y : ZMod 3329) = opq x y) {f f' g g' : List Int}
    (hf : f.length = 256) (hf' : f'.length = 256) (hg : g.length = 256) (hg' : g'.length = 256)
    (hff : ∀ k, k < 256 → residue f k = residue f' k)
    (hgg : ∀ k, k < 256 → residue g k = residue g' k) :
    List.zipWith (fun x y => modq (op x y)) f g = List.zipWith (fun x y => modq (op x y)) f' g' := by
  have hres {u v : List Int} (hu : u.length = 256) (hv : v.length = 256) {k : Nat} (hk : k < 256) :
      residue (List.zipWith (fun x y => modq (op x y)) u v) k = opq (residue u k) (residue v k) := by
    rw [residue, entry_zipWith _ u v k (hu.symm ▸ hk) (hv.symm ▸ hk), intCast_modq, hop]
    rfl
  refine eq_of_residue_eq (by simp [hf, hg]) (by simp [hf', hg'])
    (reduced_zipWith (fun _ _ => modq_modq _) f g) (reduced_zipWith (fun _ _ => modq_modq _) f' g')
    fun k hk => ?_
  rw [hres hf hg hk, hres hf' hg' hk, hff k hk, hgg k hk]

/-- Settles O47: each command is an operation on the residues of its sources. -/
theorem pairCommandsReadResiduesOnly : Obligations.PairCommandsReadResiduesOnly := by
  intro rd ra rb s s' ha hb i hi
  have hra := residue_eq_of_sameResidues ha
  have hrb := residue_eq_of_sameResidues hb
  have hcongr {op : Int → Int → Int} {opq : ZMod 3329 → ZMod 3329 → ZMod 3329}
      (hop : ∀ x y : Int, (op x y : ZMod 3329) = opq x y) :=
    zipWith_modq_congr hop (s.source_length ra) (s'.source_length ra) (s.source_length rb)
      (s'.source_length rb) hra hrb
  simp only [List.mem_cons, List.not_mem_nil, or_false] at hi
  obtain rfl | rfl | rfl := hi
  · exact ⟨_, _, exec_mulntt s rd ra rb, exec_mulntt s' rd ra rb,
      sameCells_setDest rd (mulBlocks_congr hra hrb)⟩
  · exact ⟨_, _, exec_add s rd ra rb, exec_add s' rd ra rb,
      sameCells_setDest rd (hcongr Int.cast_add)⟩
  · exact ⟨_, _, exec_sub s rd ra rb, exec_sub s' rd ra rb,
      sameCells_setDest rd (hcongr Int.cast_sub)⟩

/-! ### MULNTT -/

/-- Settles O49, from the residues of a block. -/
theorem mulnttMultipliesBlockByBlock : Obligations.MulnttMultipliesBlockByBlock := by
  intro rd ra rb s
  refine ⟨_, exec_mulntt s rd ra rb, fun i hi => ?_, onlyDest_setDest s rd _⟩
  obtain ⟨hlow, hhigh⟩ := residue_mulBlocks (s.source ra) (s.source rb) hi
  have hlen := mulBlocks_length (s.source ra) (s.source rb)
  have hred := reduced_mulBlocks (s.source ra) (s.source rb)
  have h0 : 2 * i < 256 := by omega
  have h1 : 2 * i + 1 < 256 := by omega
  simp only [residue_source s _ h0, residue_source s _ h1, twist] at hlow hhigh
  constructor
  · exact cell_setDest_eq_mod s rd hlen hred h0 (by exact_mod_cast hlow)
  · exact cell_setDest_eq_mod s rd hlen hred h1 (by exact_mod_cast hhigh)

/-- Settles O50: the rings of the blocks are commutative, and (1, 0) is their one. -/
theorem mulnttIsSymmetricWithUnit : Obligations.MulnttIsSymmetricWithUnit := by
  intro rd ra rb s
  refine ⟨_, _, exec_mulntt s rd ra rb, exec_mulntt s rd rb ra,
    sameCells_setDest rd (mulBlocks_comm _ _), fun hunit k hk => ?_⟩
  have hone : ∀ i, i < 128 → block (s.source ra) i = 1 := by
    intro i hi
    obtain ⟨hlow, hhigh⟩ := hunit i hi
    rw [block, residue_source s ra (by omega), residue_source s ra (by omega), hlow, hhigh,
      Nat.cast_one, Nat.cast_zero]
    rfl
  exact cell_setDest_eq_mod s rd (mulBlocks_length _ _) (reduced_mulBlocks _ _) hk
    (by rw [residue_mulBlocks_one hone _ k hk, residue_source s rb hk])

/-- Settles O51: the second transform reads b as it was, MULNTT reads both transforms, and INTT
undoes the transform of the product. -/
theorem transformProductIsRingProduct : Obligations.TransformProductIsRingProduct := by
  intro a b c d e f s hcb hcd _ _
  have hlen {t : State} (r : RegNum) := nttNetwork_length _ (t.source_length r)
  have hred {t : State} (r : RegNum) := reduced_nttNetwork _ (t.source_length r)
  obtain ⟨s₁, h₁, hc, hkeep₁⟩ := exists_next_source (exec_ntt s c a) (hlen a) (hred a)
  obtain ⟨s₂, h₂, hd, hkeep₂⟩ := exists_next_source (exec_ntt s₁ d b) (hlen b) (hred b)
  obtain ⟨s₃, h₃, he, _⟩ := exists_next_source (exec_mulntt s₂ e c d) (mulBlocks_length _ _)
    (reduced_mulBlocks _ _)
  obtain ⟨t, h₄, hf, _⟩ := exists_next_source (exec_intt s₃ f e)
    (inttNetwork_length _ (s₃.source_length e)) (reduced_inttNetwork _)
  refine ⟨t, ?_, fun k hk => ?_⟩
  · rw [execAll_cons_of_next h₁, execAll_cons_of_next h₂, execAll_pair h₃ h₄]
  · have hproduct : t.source f = ringProduct (s.reg a) (s.reg b) := by
      rw [hf, he, hkeep₂ c hcd, hc, hd, hkeep₁ b hcb.symm, mulBlocks_nttNetwork,
        inttNetwork_nttNetwork (ringProduct_length _ _) (reduced_ringProduct _ _)]
    rw [← entry_source_eq_cell t f hk, hproduct, entry_ringProduct _ _ hk]
    rfl

end Sys2Proof.Machine
end

section
/-!
The statements on the ring adder and subtractor (45_ring_addsub.md).
-/

namespace Sys2Proof.Machine

open Sys2Proof.Claims

/-! ### One command -/

/-- A command that writes a reduced operation of its two sources cell by cell (R180). -/
theorem writesDest_zipWith_modq {i : Instr} {rd ra rb : RegNum} {s : State} (op : Int → Int → Int)
    (h : exec i s = .next
      (s.setDest rd (List.zipWith (fun a b => modq (op a b)) (s.source ra) (s.source rb)))) :
    writesDest i rd s fun v => ∀ k, k < 256 →
      (cell v k : Int) = modq (op (cell (s.reg ra) k) (cell (s.reg rb) k)) := by
  refine ⟨_, h, fun k hk => ?_, onlyDest_setDest s rd _⟩
  rw [cell_setDest_of_reduced s rd (by simp) (reduced_zipWith (fun _ _ => modq_modq _) _ _) hk,
    entry_zipWith _ _ _ k (by simpa) (by simpa), entry_source_eq_cell s ra hk,
    entry_source_eq_cell s rb hk]

/-- Settles O52: the sum of two cells is no negative number. -/
theorem addAddsModuloQ : Obligations.AddAddsModuloQ := by
  intro rd ra rb s
  obtain ⟨t, ht, hcell, hframe⟩ := writesDest_zipWith_modq (· + ·) (exec_add s rd ra rb)
  refine ⟨t, ht, fun k hk => ?_, hframe⟩
  have hsum : (cell (t.reg rd) k : Int) =
      ((cell (s.reg ra) k : Int) + cell (s.reg rb) k) % 3329 := hcell k hk
  exact_mod_cast hsum

/-- Settles O53: modq is the floor-style remainder (R111). -/
theorem subSubtractsModuloQ : Obligations.SubSubtractsModuloQ := fun rd ra rb s =>
  writesDest_zipWith_modq (· - ·) (exec_sub s rd ra rb)

/-! ### One command after the other -/

/-- When the second operation undoes the first modulo 3329, the two commands leave the first source
reduced, provided that the first command does not overwrite the second source. -/
theorem execAll_pair_of_undoes {i j : Instr} {r0 r1 r2 r3 : RegNum} {op undo : Int → Int → Int}
    (hundo : ∀ x y, modq (undo (modq (op x y)) y) = modq x) (hne : r2 ≠ r1) (s : State)
    (hi : exec i s = .next
      (s.setDest r2 (List.zipWith (fun a b => modq (op a b)) (s.source r0) (s.source r1))))
    (hj : ∀ t : State, exec j t = .next
      (t.setDest r3 (List.zipWith (fun a b => modq (undo a b)) (t.source r2) (t.source r1)))) :
    ∃ t, execAll [i, j] s = .next t ∧
      ∀ k, k < 256 → cell (t.reg r3) k = cell (s.reg r0) k % 3329 := by
  obtain ⟨t, ht, hop, hkept, _⟩ := writesDest_zipWith_modq op hi
  obtain ⟨u, hu, hback, _⟩ := writesDest_zipWith_modq undo (hj t)
  refine ⟨u, execAll_pair ht hu, fun k hk => ?_⟩
  have hcell : (cell (u.reg r3) k : Int) = (cell (s.reg r0) k : Int) % 3329 := by
    rw [hback k hk, hop k hk, hkept r1 hne.symm k hk, hundo]
    rfl
  exact_mod_cast hcell

theorem modq_modq_add_sub (x y : Int) : modq (modq (x + y) - y) = modq x := by
  simp [modq]

theorem modq_modq_sub_add (x y : Int) : modq (modq (x - y) + y) = modq x := by
  simp [modq]

/-- Settles O54: both pairs of commands leave R[r0] reduced, and a cell is below 2 * 3329. -/
theorem addAndSubUndoEachOther : Obligations.AddAndSubUndoEachOther := by
  intro r2 r3 r0 r1 s hne
  obtain ⟨t, ht, hsub⟩ := execAll_pair_of_undoes modq_modq_add_sub hne s (exec_add s r2 r0 r1)
    (exec_sub · r3 r2 r1)
  obtain ⟨u, hu, hadd⟩ := execAll_pair_of_undoes modq_modq_sub_add hne s (exec_sub s r2 r0 r1)
    (exec_add · r3 r2 r1)
  refine ⟨⟨t, ht, fun k hk => ⟨fun hlt => ?_, fun hge => ?_⟩⟩, u, hu, fun k hk hlt => ?_⟩
  · rw [hsub k hk, Nat.mod_eq_of_lt hlt]
  · have hcell := cell_lt (s.reg r0) hk
    have hmod := hsub k hk
    omega
  · rw [hadd k hk, Nat.mod_eq_of_lt hlt]

end Sys2Proof.Machine
end

section
/-!
The statement on the system command (46_system.md).
-/

namespace Sys2Proof.Machine

open Sys2Proof.Claims

/-! ### The reversal as a list of bits -/

/-- The reversed index is the number of its seven bits in reverse order (R114). -/
theorem bitrev7_eq_bitsValue_reverse (i : Nat) : bitrev7 i = bitsValue (valueBits 7 i).reverse := by
  have hbits : (valueBits 7 i).reverse = [i.testBit 6, i.testBit 5, i.testBit 4, i.testBit 3,
    i.testBit 2, i.testBit 1, i.testBit 0] := rfl
  simp only [hbits, bitsValue, bitrev7, Nat.toNat_testBit, Nat.reducePow, Nat.div_one]
  ring

/-- The bits of the reversed index are those of the index, last bit first. -/
theorem valueBits_bitrev7 (i : Nat) : valueBits 7 (bitrev7 i) = (valueBits 7 i).reverse := by
  have h := valueBits_bitsValue (valueBits 7 i).reverse
  rwa [← bitrev7_eq_bitsValue_reverse, List.length_reverse, valueBits_length] at h

/-- Reversing twice keeps the low seven bits. -/
theorem bitrev7_bitrev7 (i : Nat) : bitrev7 (bitrev7 i) = i % 2 ^ 7 := by
  rw [bitrev7_eq_bitsValue_reverse (bitrev7 i), valueBits_bitrev7, List.reverse_reverse,
    bitsValue_valueBits]

theorem testBit_bitrev7 (i : Nat) {j : Nat} (hj : j < 7) :
    (bitrev7 i).testBit j = i.testBit (6 - j) := by
  rw [bitrev7_eq_bitsValue_reverse, testBit_bitsValue, List.getD_reverse j (by simpa using hj),
    valueBits_length, valueBits_getD 7 i (by omega)]

/-- RESULT has room for every reversed index (R34). -/
theorem bitrev7_lt (i : Nat) : bitrev7 i < 2 ^ 7 := by
  rw [bitrev7]
  omega

/-! ### The command -/

/-- Writing RESULT changes nothing else (R190). -/
theorem onlyResult_setResult (s : State) (v : BitVec 7) : onlyResult s (s.setResult v) :=
  ⟨fun _ _ _ => rfl, fun _ _ _ => rfl, ⟨rfl, rfl, rfl⟩, rfl, rfl, rfl⟩

/-- Settles O56: the range check on idx decides between the reversal and the fault. -/
theorem brev7ReversesSevenBits : Obligations.Brev7ReversesSevenBits := by
  intro idx s
  obtain ⟨hgt, hfault⟩ | ⟨hle, hresult⟩ := execBrev7_cases s idx
  · exact ⟨fun hle => by omega, fun _ => ⟨_, hfault, onlyRecorded_raiseFault s _ _⟩⟩
  · refine ⟨fun _ => ⟨_, hresult, fun j hj => ?_, ?_, onlyResult_setResult s _⟩, fun hge => by omega⟩
    · rw [State.setResult_result, BitVec.getLsbD_ofNat, testBit_bitrev7 _ hj, BitVec.testBit_toNat,
        decide_eq_true hj, Bool.true_and]
    · rw [State.setResult_result, BitVec.toNat_ofNat, Nat.mod_eq_of_lt (bitrev7_lt _),
        bitrev7_bitrev7, Nat.mod_eq_of_lt (by omega)]

end Sys2Proof.Machine
end

section
/-!
SUPPORT. The checks of R95 steps 2 to 4 on the word of a command: which commands fail each of them,
what a failing check does, and that a command that passes them all keeps FAULT.
-/

namespace Sys2Proof.Machine

open Sys2Proof.Claims

/-! ### The checks by the fields of the word -/

theorem hasIllegalD_iff_fields (w : Word32) : hasIllegalD w ↔
    ((fieldOP w).toNat = 0x01 ∨ (fieldOP w).toNat = 0x02 ∨ (fieldOP w).toNat = 0x03 ∨
      (fieldOP w).toNat = 0x04) ∧
    ((fieldD w).toNat = 0 ∨ (fieldD w).toNat = 13 ∨ (fieldD w).toNat = 14 ∨
      (fieldD w).toNat = 15) := Iff.rfl

theorem hasIllegalIdx_iff_fields (w : Word32) :
    hasIllegalIdx w ↔ (fieldOP w).toNat = 0x0A ∧ 128 ≤ (fieldIDX w).toNat := Iff.rfl

theorem hasWideCell_iff_fields (w : Word32) (s : State) : hasWideCell w s ↔
    ((fieldOP w).toNat = 0x01 ∨ (fieldOP w).toNat = 0x04) ∧ (fieldD w).toNat < 12 ∧
      ∃ k, k < 256 ∧ 2 ^ (fieldD w).toNat ≤ cell (s.reg (fieldRA w)) k := Iff.rfl

/-! ### The checks by the operands of the command -/

theorem legalD_eq_false_iff (d : BitVec 4) : legalD d = false ↔
    d.toNat = 0 ∨ d.toNat = 13 ∨ d.toNat = 14 ∨ d.toNat = 15 := by
  have hlt := d.isLt
  rw [← Bool.not_eq_true, legalD_iff]
  omega

/-- The check OPERAND_RANGE fails exactly on a source with a wide cell (R201). -/
theorem outOfRange_source_iff (s : State) (r : RegNum) (d : Nat) :
    outOfRange (s.source r) d = true ↔ d < 12 ∧ ∃ k, k < 256 ∧ 2 ^ d ≤ cell (s.reg r) k := by
  rw [← Bool.not_eq_false, outOfRange_source_eq_false_iff, inRange]
  push Not
  exact ⟨fun ⟨k, hk, hd, hc⟩ => ⟨hd, k, hk, hc⟩, fun ⟨hd, k, hk, hc⟩ => ⟨k, hk, hd, hc⟩⟩

/-- An operand d is illegal in the word exactly when the command has one and it is illegal. -/
theorem hasIllegalD_encode_iff (i : Instr) :
    hasIllegalD (encode i) ↔ ∃ d, operandD i = some d ∧ legalD d = false := by
  cases i <;> simp [hasIllegalD_iff_fields, encode, operandD, legalD_eq_false_iff]

/-- Only BREV7 has an operand idx. -/
theorem hasIllegalIdx_encode_iff (i : Instr) :
    hasIllegalIdx (encode i) ↔ ∃ idx, i = .brev7 idx ∧ 127 < idx.toNat := by
  cases i <;> simp [hasIllegalIdx_iff_fields, encode, Nat.succ_le_iff]

/-- Only ENCODE and DECOMPRESS check the cells of their source. -/
theorem hasWideCell_encode_iff (i : Instr) (s : State) : hasWideCell (encode i) s ↔
    ∃ rd ra d, (i = .encode ra d ∨ i = .decompress rd ra d) ∧
      outOfRange (s.source ra) d.toNat = true := by
  cases i <;> simp [hasWideCell_iff_fields, encode, outOfRange_source_iff]

/-! ### What the checks do -/

theorem exec_of_hasIllegalD {i : Instr} (s : State) (h : hasIllegalD (encode i)) :
    exec i s = .next (s.raiseFault .illegalD (encode i)) := by
  obtain ⟨d, hi, hd⟩ := (hasIllegalD_encode_iff i).mp h
  exact exec_illegalD s hi hd

theorem exec_of_hasIllegalIdx {i : Instr} (s : State) (h : hasIllegalIdx (encode i)) :
    exec i s = .next (s.raiseFault .invalidArg (encode i)) := by
  obtain ⟨idx, rfl, hidx⟩ := (hasIllegalIdx_encode_iff i).mp h
  exact exec_invalidArg s hidx

/-- The operand d of a command that passes the check of d is legal. -/
theorem legalD_of_not_hasIllegalD {i : Instr} {d : BitVec 4} (h : ¬ hasIllegalD (encode i))
    (hi : operandD i = some d) : legalD d = true := by
  rw [← Bool.not_eq_false]
  exact fun hd => h ((hasIllegalD_encode_iff i).mpr ⟨d, hi, hd⟩)

theorem exec_of_hasWideCell {i : Instr} {s : State} (hd : ¬ hasIllegalD (encode i))
    (h : hasWideCell (encode i) s) : exec i s = .next (s.raiseFault .operandRange (encode i)) := by
  obtain ⟨rd, ra, d, hi, ho⟩ := (hasWideCell_encode_iff i s).mp h
  have hop : operandD i = some d := by obtain rfl | rfl := hi <;> rfl
  exact exec_operandRange s hi (legalD_of_not_hasIllegalD hd hop) ho

/-- A command that passes the three checks executes and raises no fault (R95 step 4). -/
theorem exec_of_checks_pass {i : Instr} {s : State} (hd : ¬ hasIllegalD (encode i))
    (hidx : ¬ hasIllegalIdx (encode i)) (hwide : ¬ hasWideCell (encode i) s) :
    ∃ t, exec i s = .next t ∧ t.fault = s.fault := by
  rw [hasIllegalD_encode_iff] at hd
  rw [hasIllegalIdx_encode_iff] at hidx
  rw [hasWideCell_encode_iff] at hwide
  cases i with
  | encode ra d =>
    obtain ⟨hl, _⟩ | ⟨_, ho, _⟩ | ⟨_, _, h⟩ := execEncode_cases s ra d
    · exact absurd ⟨d, rfl, hl⟩ hd
    · exact absurd ⟨ra, ra, d, .inl rfl, ho⟩ hwide
    · exact ⟨_, h, rfl⟩
  | decode rd d =>
    obtain ⟨hl, _⟩ | ⟨_, h⟩ := execDecode_cases s rd d
    · exact absurd ⟨d, rfl, hl⟩ hd
    · exact ⟨_, h, rfl⟩
  | compress rd ra d =>
    obtain ⟨hl, _⟩ | ⟨_, h⟩ := execCompress_cases s rd ra d
    · exact absurd ⟨d, rfl, hl⟩ hd
    · exact ⟨_, h, rfl⟩
  | decompress rd ra d =>
    obtain ⟨hl, _⟩ | ⟨_, ho, _⟩ | ⟨_, _, h⟩ := execDecompress_cases s rd ra d
    · exact absurd ⟨d, rfl, hl⟩ hd
    · exact absurd ⟨rd, ra, d, .inr rfl, ho⟩ hwide
    · exact ⟨_, h, rfl⟩
  | ntt rd ra => exact ⟨_, exec_ntt s rd ra, rfl⟩
  | intt rd ra => exact ⟨_, exec_intt s rd ra, rfl⟩
  | mulntt rd ra rb => exact ⟨_, exec_mulntt s rd ra rb, rfl⟩
  | add rd ra rb => exact ⟨_, exec_add s rd ra rb, rfl⟩
  | sub rd ra rb => exact ⟨_, exec_sub s rd ra rb, rfl⟩
  | brev7 idx =>
    obtain ⟨hgt, _⟩ | ⟨_, h⟩ := execBrev7_cases s idx
    · exact absurd ⟨idx, rfl, hgt⟩ hidx
    · exact ⟨_, h, rfl⟩

end Sys2Proof.Machine
end

section
/-!
SUPPORT. The step that issues a command is the execution of the command from the state in which its
write is already answered: no command reads or writes the host's answers.
-/

namespace Sys2Proof.Machine

open Sys2Proof.Claims

/-- The check of d does not see an answer when the command behind it does not. -/
theorem withLegalD_answer {i : Instr} {d : BitVec 4} {s : State} {a : Response}
    {body body' : Nat → State} (h : ∀ d', body' d' = (body d').answer a) :
    withLegalD i d (s.answer a) body' = (withLegalD i d s body).answer a := by
  obtain ⟨hd, hs⟩ | ⟨hd, hs⟩ := withLegalD_cases i d s body
  · rw [hs, withLegalD_legal _ _ _ hd, h]
  · rw [hs, withLegalD_illegal _ _ _ hd]
    rfl

theorem exec_brev7_inRange {idx : BitVec 8} (s : State) (h : idx.toNat ≤ 127) :
    exec (.brev7 idx) s = .next (s.setResult (BitVec.ofNat 7 (bitrev7 idx.toNat))) := by
  obtain ⟨hgt, _⟩ | ⟨_, hx⟩ := execBrev7_cases s idx
  · omega
  · exact hx

/-- Giving the answer OK before a command or after it makes no difference. -/
theorem exec_answer (i : Instr) (s : State) : exec i (s.answer .ok) = finishCommand (exec i s) := by
  cases i with
  | encode | decompress =>
    refine congrArg Host.Outcome.next (withLegalD_answer fun _ => ?_)
    rw [apply_ite (State.answer .ok)]
    rfl
  | decode | compress => exact congrArg Host.Outcome.next (withLegalD_answer fun _ => rfl)
  | ntt | intt | mulntt | add | sub => rfl
  | brev7 idx =>
    obtain ⟨hgt, h⟩ | ⟨hle, h⟩ := execBrev7_cases s idx
    · rw [h, exec_invalidArg _ hgt]
      rfl
    · rw [h, exec_brev7_inRange _ hle]
      rfl

/-- Outside the fault state a word that is not malformed is the word of a command, and its step is
the execution of that command. -/
theorem step_of_not_malformed {s : State} {w : Word32} {rest : List HostEvent}
    (hp : s.pending = cmdEvent w :: rest) (hf : s.fault = false) (hm : ¬ malformed w) :
    ∃ i, encode i = w ∧ step s = exec i (answered .ok rest s) := by
  obtain ⟨i, rfl⟩ := exists_encode_eq_of_not_malformed hm
  have hs := serve_cmdWrite (.inl rfl : cmdEvent (encode i) = cmdEvent (encode i) ∨ _)
    { s with pending := rest }
  refine ⟨i, rfl, ?_⟩
  calc step s = issue (encode i) { s with pending := rest } :=
        step_command hp (hs.trans (cmdWrite_issued _ hf))
    _ = finishCommand (exec i { s with pending := rest }) := by
        rw [issue, decodeOfEncodeGivesTheCommand i]
    _ = exec i (answered .ok rest s) := (exec_answer i _).symm

end Sys2Proof.Machine
end

section
/-!
The statements on faults and the fault state (60_exceptions.md).
-/

namespace Sys2Proof.Machine

open Sys2Proof.Claims

/-- A step that takes a fault has written the record and nothing else (R203). -/
theorem onlyRecorded_of_step {s t u : State} {c : Cause} {w : Word32} (ht : step s = .next t)
    (h : step s = .next (u.raiseFault c w)) : onlyRecorded c w u t := by
  cases ht.symm.trans h
  exact onlyRecorded_raiseFault u c w

/-- Settles O5: a malformed word is not decoded; every other word is a command's, and that command
makes the checks in the order of R204. -/
theorem commandOutcomeIsTheFirstFailingCheck :
    Obligations.CommandOutcomeIsTheFirstFailingCheck := by
  intro s w rest hf hp
  obtain ⟨t, ht, -⟩ := step_cons_effect hp
  refine ⟨t, ht, fun hm => ?_, fun hm hd => ?_, fun hm _ hidx => ?_, fun hm hd _ hwide => ?_,
    fun hm hd hidx hwide => ?_⟩
  · obtain ⟨e, he⟩ := (decode_error_iff_malformed w).mpr hm
    exact onlyRecorded_of_step ht (step_illegalCmd hp hf he)
  all_goals obtain ⟨i, rfl, hstep⟩ := step_of_not_malformed hp hf hm
  · exact onlyRecorded_of_step ht (hstep.trans (exec_of_hasIllegalD _ hd))
  · exact onlyRecorded_of_step ht (hstep.trans (exec_of_hasIllegalIdx _ hidx))
  · exact onlyRecorded_of_step ht (hstep.trans (exec_of_hasWideCell hd hwide))
  · obtain ⟨u, hu, hfault⟩ := exec_of_checks_pass (s := answered .ok rest s) hd hidx hwide
    cases ht.symm.trans (hstep.trans hu)
    exact ⟨hfault.trans hf, i, decodeOfEncodeGivesTheCommand i, hu⟩

/-- The record of a fault stands until a reset clears it (R33, R206). -/
theorem EventEffect.record_of_fault {e : HostEvent} {s t : State} (h : EventEffect e s t)
    (hf : s.fault = true) :
    recordKept s t ∨ (t.fault = false ∧ t.cause = .none ∧ t.fcmd = 0#32 ∧ e.isReset = true) := by
  cases h with
  | illegal w r _ _ hf' => rw [hf] at hf'; cases hf'
  | command w i u _ _ hf' => rw [hf] at hf'; cases hf'
  | softReset _ hr => exact .inr ⟨rfl, rfl, rfl, hr⟩
  | hardReset he => exact .inr ⟨rfl, rfl, rfl, he ▸ rfl⟩
  | cellWrite => exact .inl ⟨rfl, rfl, rfl⟩
  | byteWrite => exact .inl ⟨rfl, rfl, rfl⟩
  | answerOnly => exact .inl ⟨rfl, rfl, rfl⟩

/-- Settles O8, event by event. -/
theorem onlyAResetLeavesTheFaultState : Obligations.OnlyAResetLeavesTheFaultState := by
  intro s t hf h
  obtain ⟨_, rfl⟩ | ⟨e, rest, hp, he⟩ := step_effect h
  · exact .inl ⟨hf, rfl, rfl⟩
  · obtain ⟨hfault, hcause, hfcmd⟩ | ⟨hfault, hcause, hfcmd, hr⟩ := he.record_of_fault hf
    · exact .inl ⟨hfault.trans hf, hcause, hfcmd⟩
    · exact .inr ⟨hfault, hcause, hfcmd, e, rest, hp, hr⟩

/-- Settles O7: by either way of writing it (R59, R64) the word reaches CMD, which drops it. -/
theorem faultStateDropsEveryCommand : Obligations.FaultStateDropsEveryCommand := by
  intro s w rest hf hp
  have drops {e : HostEvent} (he : e = cmdEvent w ∨ e = .busWrite 0x1204#13 (.four w))
      (hp : s.pending = e :: rest) : step s = .next (answered .ok rest s) :=
    step_served hp ((serve_cmdWrite he _).trans (cmdWrite_dropped w hf))
  obtain hp | hp := hp
  · exact drops (.inl rfl) hp
  · exact drops (.inr rfl) hp

/-- Settles O23: the step of the idle engine. -/
theorem idleEngineKeepsItsState : Obligations.IdleEngineKeepsItsState := fun _ => step_idle

end Sys2Proof.Machine
end

section
/-!
The statements on reset, completion and the sources of a result (70_reset_and_hazards.md).
-/

namespace Sys2Proof.Machine

open Sys2Proof.Claims

/-! ### Steps and runs -/

/-- Settles O16: the step of `rst` is the reset itself. -/
theorem resetInputClearsTheRecord : Obligations.ResetInputClearsTheRecord := fun _ _ hp =>
  ⟨_, step_served hp rfl, rfl, rfl, rfl, rfl, rfl, rfl, rfl⟩

/-- Settles O24: idle, or with an event to serve. -/
theorem everyStepCompletes : Obligations.EveryStepCompletes := by
  intro s
  cases hp : s.pending with
  | nil => exact ⟨s, step_idle hp⟩
  | cons e rest =>
    obtain ⟨t, ht, -⟩ := step_cons_effect hp
    exact ⟨t, ht⟩

theorem runsTo_nil {s : State} (hp : s.pending = []) : runsTo s s := by
  rw [runsTo, hp]
  rfl

theorem run_succ_of_next (M : Host.Core) {s u : M.State} (k : Nat) (h : M.step s = .next u) :
    M.run (k + 1) s = M.run k u := by
  rw [Host.Core.run, h]

/-- A run is the step of its first event and the run of the events after it. -/
theorem runsTo_cons {s u t : State} {e : HostEvent} (hp : s.pending = e :: u.pending)
    (hs : step s = .next u) (hr : runsTo u t) : runsTo s t := by
  rw [runsTo, hp, List.length_cons]
  exact (run_succ_of_next core _ hs).trans hr

/-- The number of answers an event adds: one for a transaction, none for `rst` (R50). -/
theorem servedOnce.answers_length {e : HostEvent} {s t : State} (h : servedOnce e s t) :
    t.answers.length = s.answers.length + ([e].filter HostEvent.isTransaction).length := by
  obtain ⟨-, hanswer, hnone⟩ := h
  cases he : e.isTransaction with
  | true =>
    obtain ⟨a, ha⟩ := hanswer he
    simp [ha, he]
  | false => simp [hnone he, he]

/-- Settles O26, by induction on the pending events. -/
theorem hostProgramRunsToItsEnd : Obligations.HostProgramRunsToItsEnd := by
  intro s
  induction hp : s.pending generalizing s with
  | nil => exact ⟨s, runsTo_nil hp, hp, rfl⟩
  | cons e rest ih =>
    obtain ⟨u, hs, heffect⟩ := step_cons_effect hp
    have hserved := heffect.servedOnce
    have hrest : u.pending = rest := hserved.1
    obtain ⟨t, hrun, hend, hcount⟩ := ih u hrest
    refine ⟨t, runsTo_cons (hrest ▸ hp) hs hrun, hend, ?_⟩
    rw [hcount, hserved.answers_length, Nat.add_assoc, ← List.length_append, ← List.filter_append]
    rfl

/-! ### Results and sources -/

/-- A source is the values of its cells and nothing else (R23). -/
theorem source_eq_of_sameCells {s s' : State} {r : RegNum} (h : sameCells (s.reg r) (s'.reg r)) :
    s.source r = s'.source r :=
  ext_entry (s.source_length r) (s'.source_length r) fun k hk => by
    rw [entry_source_eq_cell s r hk, entry_source_eq_cell s' r hk, h k hk]

/-- Commands that write equal sequences have the same result, whichever their destinations (R236). -/
theorem sameResult_of_setDest {i i' : Instr} {rd rd' : RegNum} {s s' : State} {vs vs' : List Int}
    (h : exec i s = .next (s.setDest rd vs)) (h' : exec i' s' = .next (s'.setDest rd' vs'))
    (hvs : vs = vs') : sameResult i i' rd rd' s s' := by
  refine ⟨_, _, h, h', fun k _ => ?_⟩
  rw [s.setDest_reg_same, s'.setDest_reg_same, hvs]

theorem exec_compress_legal (s : State) (rd ra : RegNum) {d : BitVec 4} (hd : legalD d = true) :
    exec (.compress rd ra d) s =
      .next (s.setDest rd ((s.source ra).map fun x => compress1 x d.toNat)) := by
  obtain ⟨hd', _⟩ | ⟨_, h⟩ := execCompress_cases s rd ra d
  · rw [hd] at hd'; cases hd'
  · exact h

theorem exec_decompress_inRange (s : State) (rd : RegNum) {ra : RegNum} {d : BitVec 4}
    (hd : legalD d = true) (hr : inRange (s.reg ra) d.toNat) :
    exec (.decompress rd ra d) s =
      .next (s.setDest rd ((s.source ra).map fun y => decompress1 y d.toNat)) := by
  obtain ⟨hd', _⟩ | ⟨_, ho, _⟩ | ⟨_, _, h⟩ := execDecompress_cases s rd ra d
  · rw [hd] at hd'; cases hd'
  · rw [(outOfRange_source_eq_false_iff s ra _).mpr hr] at ho; cases ho
  · exact h

/-- Settles O55: each command writes a function of the integers of its sources. -/
theorem resultsDependOnSourcesOnly : Obligations.ResultsDependOnSourcesOnly := by
  intro rd rd' ra rb d s s' ha hb
  have hsa := source_eq_of_sameCells ha
  have hsb := source_eq_of_sameCells hb
  refine ⟨sameResult_of_setDest (exec_ntt s rd ra) (exec_ntt s' rd' ra) (by rw [hsa]),
    sameResult_of_setDest (exec_intt s rd ra) (exec_intt s' rd' ra) (by rw [hsa]),
    sameResult_of_setDest (exec_mulntt s rd ra rb) (exec_mulntt s' rd' ra rb) (by rw [hsa, hsb]),
    sameResult_of_setDest (exec_add s rd ra rb) (exec_add s' rd' ra rb) (by rw [hsa, hsb]),
    sameResult_of_setDest (exec_sub s rd ra rb) (exec_sub s' rd' ra rb) (by rw [hsa, hsb]),
    fun h1 h12 => ?_, fun h1 h12 hr => ?_⟩
  · have hd := (legalD_iff d).mpr ⟨h1, h12⟩
    exact sameResult_of_setDest (exec_compress_legal s rd ra hd) (exec_compress_legal s' rd' ra hd)
      (by rw [hsa])
  · have hd := (legalD_iff d).mpr ⟨h1, h12⟩
    have hr' : inRange (s'.reg ra) d.toNat := fun k hk hlt => ha k hk ▸ hr k hk hlt
    exact sameResult_of_setDest (exec_decompress_inRange s rd hd hr)
      (exec_decompress_inRange s' rd' hd hr') (by rw [hsa])

end Sys2Proof.Machine
end
